-- ==== Sys2Proof/Word.lean ====
section
/-! DEFINITION. The word types of the block: 32-bit command and response words, 8-bit character codes, symbol
indices, permutation tables, and the three rotor slots. No arithmetic beyond what these types bring with them. -/

namespace Sys2Proof

/-- A command word or a response word: `CWW` = 32 bits (R6, R43, R46). -/
abbrev Word := BitVec 32

/-- A character code, or a reflector name code: `CHW` = 8 bits (R6, R49, R50). -/
abbrev Byte := BitVec 8

/-- A symbol index, a rotor position or a ring setting: an integer in `[0,25]` (R7, R16, R17). The hardware holds it
in `IDXW` = 5 bits (R6) of which only the values 0 to 25 are legal, so the type is the legal values. -/
abbrev Idx := Fin 26

/-- A permutation table: "an ordered sequence of 26 indices where position i holds the image of symbol i" (R8). The
type holds any table of 26 indices, and that a table is a bijection is a statement about it. -/
abbrev Perm := Vector Idx 26

/-- A rotor type select code: `SELW` = 4 bits, all sixteen codes legal (R6, R48). -/
abbrev Sel := BitVec 4

/-- The three rotor slots, in signal-path order: `L = 0`, `M = 1`, `R = 2` (R12, R93). -/
inductive Slot where
  | left
  | middle
  | right
deriving DecidableEq, Repr

/-- One value for each rotor slot, in the order left, middle, right (R93). -/
structure Slots (α : Type) where
  left : α
  middle : α
  right : α
deriving DecidableEq, Repr

end Sys2Proof
end

