-- ==== Sys2Proof/Syntax.lean ====
section
/-! DEFINITION. The instructions: one constructor for each row of spec/opcode_table.json. Nine are the host's commands
(R45), twelve are the internal stages of the encipherment of one letter (R100). -/

namespace Sys2Proof

/-- The rows of the opcode table. A field is held at the width its format gives it (R44). -/
inductive Instr where
  /-- `SETROT n, rl, rm, rr`: stage the rotor list (R110, format S4). -/
  | setrot (n : BitVec 3) (sl sm sr : BitVec 4)
  /-- `SETPOS n, vl, vm, vr`: stage the initial positions (R111, format S5). -/
  | setpos (n : BitVec 3) (vl vm vr : BitVec 5)
  /-- `SETRING n, vl, vm, vr`: stage the ring settings (R112, format S5). -/
  | setring (n : BitVec 3) (vl vm vr : BitVec 5)
  /-- `SETREF name`: stage the reflector name (R113, format C). -/
  | setref (ch : Byte)
  /-- `PLUGCLR`: empty the staged plugboard specification (R114, format Z). -/
  | plugclr
  /-- `PLUGCH c`: append one character to it (R115, format C). -/
  | plugch (ch : Byte)
  /-- `BUILD`: construct the engine from the staged configuration (R116, format Z). -/
  | build
  /-- `ENCC c, cnt`: encipher one character (R118, format E). -/
  | encc (cnt : BitVec 2) (ch : Byte)
  /-- `RDPOS k`: read a rotor position (R117, format K). -/
  | rdpos (k : BitVec 2)
  /-- Stage 0, `CLASSIFY` (R100, R102). -/
  | classify
  /-- Stage 1, `STEP` (R96, R100). -/
  | step
  /-- Stage 2, `PLUG_IN` (R88, R100). -/
  | plugIn
  /-- Stage 3, `R_FWD` (R72, R100). -/
  | rFwd
  /-- Stage 4, `M_FWD` (R72, R100). -/
  | mFwd
  /-- Stage 5, `L_FWD` (R72, R100). -/
  | lFwd
  /-- Stage 6, `REFL` (R79, R100). -/
  | refl
  /-- Stage 7, `L_BWD` (R74, R100). -/
  | lBwd
  /-- Stage 8, `M_BWD` (R74, R100). -/
  | mBwd
  /-- Stage 9, `R_BWD` (R74, R100). -/
  | rBwd
  /-- Stage 10, `PLUG_OUT` (R88, R100). -/
  | plugOut
  /-- Stage 11, `EMIT` (R100, R102). -/
  | emit
deriving DecidableEq, Repr

/-- An instruction as it is presented to the decoder. A command is a 32-bit word the host sends (R43). A stage is the
4-bit number by which the sequencer names it (R100, format UOP of the opcode table): the two never share an encoding. -/
inductive Code where
  | command (w : Word)
  | stage (n : BitVec 4)
deriving DecidableEq, Repr

end Sys2Proof
end

