-- ==== Sys2Proof/WellFormed.lean ====
section
/-! DEFINITION. Which instructions are well formed. Every field may hold every value of its width, with one exception:
the slot field of `RDPOS`, whose value 3 names no rotor (R44, R45, R53). -/

namespace Sys2Proof

/-- `RDPOS` with `K = 3` is illegal (R45). Every other instruction is well formed at every operand. -/
def Instr.wellFormed : Instr → Bool
  | .rdpos k => k != 3#2
  | .setrot _ _ _ _ => true
  | .setpos _ _ _ _ => true
  | .setring _ _ _ _ => true
  | .setref _ => true
  | .plugclr => true
  | .plugch _ => true
  | .build => true
  | .encc _ _ => true
  | .classify => true
  | .step => true
  | .plugIn => true
  | .rFwd => true
  | .mFwd => true
  | .lFwd => true
  | .refl => true
  | .lBwd => true
  | .mBwd => true
  | .rBwd => true
  | .plugOut => true
  | .emit => true

end Sys2Proof
end

