-- ==== Sys2Proof/Decode.lean ====
section
/-! DEFINITION. The decoder, total on every code and rejecting by name, and after it the encoder. Decoding looks at the
code alone, never at the state (R55). The unit is the whole 32-bit word or the 4-bit stage number: nothing is stored in
bytes and the block has no byte order (R35). -/

namespace Sys2Proof

/-- Why a code is rejected. -/
inductive DecodeError where
  /-- `OP = 0` or `OP = 10 .. 15` selects no command (R53). -/
  | reservedOpcode (op : BitVec 4)
  /-- A bit that the format of this command reserves is set (R52). -/
  | reservedBits (mnemonic : String)
  /-- `RDPOS` with `K = 3` names no rotor (R53). -/
  | noSuchSlot
  /-- The stages are numbered 0 to 11 (R100). -/
  | noSuchStage (n : BitVec 4)
deriving DecidableEq, Repr

/-- The field of `len` bits of a command word whose lowest bit is `lo` (R9). -/
def field (w : Word) (lo len : Nat) : BitVec len := w.extractLsb' lo len

/-- The value `v` as a field whose lowest bit is `lo`, in a word that is zero elsewhere (R9). -/
def place {len : Nat} (v : BitVec len) (lo : Nat) : Word := v.setWidth 32 <<< lo

/-- `i`, if the reserved field of `len` bits at `lo` is zero (R52). -/
def ifReservedZero (w : Word) (lo len : Nat) (mnemonic : String) (i : Instr) : Except DecodeError Instr :=
  if field w lo len = 0#len then .ok i else .error (.reservedBits mnemonic)

/-- The slot field of `RDPOS`: 3 is illegal (R44, R45). -/
def decodeRdpos (k : BitVec 2) : Except DecodeError Instr :=
  if k = 3#2 then .error .noSuchSlot else .ok (.rdpos k)

/-- The command of a command word: the opcode map of R45 with the formats of R44. -/
def decodeCommand (w : Word) : Except DecodeError Instr :=
  match field w 28 4 with
  | 0x1#4 => ifReservedZero w 12 13 "SETROT" (.setrot (field w 25 3) (field w 8 4) (field w 4 4) (field w 0 4))
  | 0x2#4 => ifReservedZero w 15 10 "SETPOS" (.setpos (field w 25 3) (field w 10 5) (field w 5 5) (field w 0 5))
  | 0x3#4 => ifReservedZero w 15 10 "SETRING" (.setring (field w 25 3) (field w 10 5) (field w 5 5) (field w 0 5))
  | 0x4#4 => ifReservedZero w 8 20 "SETREF" (.setref (field w 0 8))
  | 0x5#4 => ifReservedZero w 0 28 "PLUGCLR" .plugclr
  | 0x6#4 => ifReservedZero w 8 20 "PLUGCH" (.plugch (field w 0 8))
  | 0x7#4 => ifReservedZero w 0 28 "BUILD" .build
  | 0x8#4 => ifReservedZero w 10 18 "ENCC" (.encc (field w 8 2) (field w 0 8))
  | 0x9#4 => if field w 2 26 = 0#26 then decodeRdpos (field w 0 2) else .error (.reservedBits "RDPOS")
  | op => .error (.reservedOpcode op)

/-- The stage of a stage number (R100). -/
def decodeStage (n : BitVec 4) : Except DecodeError Instr :=
  match n with
  | 0#4 => .ok .classify
  | 1#4 => .ok .step
  | 2#4 => .ok .plugIn
  | 3#4 => .ok .rFwd
  | 4#4 => .ok .mFwd
  | 5#4 => .ok .lFwd
  | 6#4 => .ok .refl
  | 7#4 => .ok .lBwd
  | 8#4 => .ok .mBwd
  | 9#4 => .ok .rBwd
  | 10#4 => .ok .plugOut
  | 11#4 => .ok .emit
  | m => .error (.noSuchStage m)

/-- The decoder: every code is one instruction or is rejected by name (R54). -/
def decode : Code → Except DecodeError Instr
  | .command w => decodeCommand w
  | .stage n => decodeStage n

/-- The encoder, field by field from the formats of R44, the opcodes of R45 and the stage numbers of R100. -/
def encode : Instr → Code
  | .setrot n sl sm sr => .command (place 0x1#4 28 ||| place n 25 ||| place sl 8 ||| place sm 4 ||| place sr 0)
  | .setpos n vl vm vr => .command (place 0x2#4 28 ||| place n 25 ||| place vl 10 ||| place vm 5 ||| place vr 0)
  | .setring n vl vm vr => .command (place 0x3#4 28 ||| place n 25 ||| place vl 10 ||| place vm 5 ||| place vr 0)
  | .setref ch => .command (place 0x4#4 28 ||| place ch 0)
  | .plugclr => .command (place 0x5#4 28)
  | .plugch ch => .command (place 0x6#4 28 ||| place ch 0)
  | .build => .command (place 0x7#4 28)
  | .encc cnt ch => .command (place 0x8#4 28 ||| place cnt 8 ||| place ch 0)
  | .rdpos k => .command (place 0x9#4 28 ||| place k 0)
  | .classify => .stage 0#4
  | .step => .stage 1#4
  | .plugIn => .stage 2#4
  | .rFwd => .stage 3#4
  | .mFwd => .stage 4#4
  | .lFwd => .stage 5#4
  | .refl => .stage 6#4
  | .lBwd => .stage 7#4
  | .mBwd => .stage 8#4
  | .rBwd => .stage 9#4
  | .plugOut => .stage 10#4
  | .emit => .stage 11#4

/-- The code of a row of the opcode table given as `nbits` bits with value `w`. The table's rows have two widths: the
4-bit stage numbers (one whole byte at most) and the 32-bit command words. A value that its width cannot hold is no
code. -/
def codeOfTableWord (nbits w : Nat) : Option Code :=
  if nbits ≤ 8 then
    if w < 16 then some (.stage (BitVec.ofNat 4 w)) else none
  else if w < 4294967296 then some (.command (BitVec.ofNat 32 w)) else none

/-- What the decoder reads from a row's bits (`none` where it rejects). -/
def decodeTableWord (nbits w : Nat) : Option Instr :=
  match codeOfTableWord nbits w with
  | some c => (decode c).toOption
  | none => none

end Sys2Proof
end

