-- ==== Sys2Proof/Config.lean ====
section
/-! DEFINITION. What is fixed for the hardware and is no state: the shape of the wiring catalog (R30, R32, R61). The
operations of the rotors, the reflector and the engine take the catalog as an argument, as R68 and decision D30 advise,
so that a claim which does not depend on the tables is a claim about every catalog. The printed tables are in
Machine/Catalog.lean. The block leaves no value open, so there is no free value here. -/

namespace Sys2Proof

/-- The live reflector select `REF` (R18): a 2-bit register of which only three values are ever written. -/
inductive RefSel where
  | fallback
  | b
  | c
deriving DecidableEq, Repr

/-- The wiring catalog (R61): `CAT_WIRING`, `CAT_NOTCH` and `CAT_REFL`, three total functions of a select code. -/
structure Catalog where
  /-- `CAT_WIRING(s)`: the forward wiring of rotor type `s` (R61). -/
  wiring : Sel → Perm
  /-- `CAT_NOTCH(s)`: the notch set of rotor type `s`, one or two indices (R61). -/
  notch : Sel → List Idx
  /-- `CAT_REFL(r)`: the permutation of reflector `r` (R61). -/
  refl : RefSel → Perm

end Sys2Proof
end

