-- ==== Sys2Proof/Machine/State.lean ====
section
/-! DEFINITION. The state of one engine instance (10_state.md), the events a host can present, the reasons a step can
stop, and the state after reset. -/

namespace Sys2Proof.Machine

/-- Why the machine stops. Neither reason can arise in a run from reset: both belong to the sequencer's stage counter,
which no command leaves busy (log entry 3). -/
inductive Fault where
  /-- Raised by every stage meaning when the sequencer is idle: there is no letter in flight to work on, and R41's
  stages have no meaning outside one. Safe: the model stops where the spec describes no behaviour. -/
  | sequencerIdle
  /-- Raised by `step` when the stage counter stands at 12 to 15, which is no stage of R100. Safe: as above. -/
  | noSuchStage (n : BitVec 4)
deriving DecidableEq, Repr

/-- Why an instruction has no meaning. -/
inductive Refusal where
  /-- Raised by an arm of `exec` for an instruction that is not modelled yet. Safe. No arm of this model raises it. -/
  | notModelled (mnemonic : String)
deriving DecidableEq, Repr

/-- The response statuses; `0x5` to `0xF` are never produced (R47). -/
inductive Status where
  | ok
  | configurationError
  | inputError
  | notConfigured
  | illegalCommand
deriving DecidableEq, Repr

/-- The live state of a constructed engine (R13, R15 to R18, R20). -/
structure Engine where
  /-- `SEL[k]`: the rotor type of each slot (R15). -/
  sel : Slots Sel
  /-- `RING[k]`: the ring setting of each slot (R16). -/
  ring : Slots Idx
  /-- `POS[k]`: the position of each slot (R17). -/
  pos : Slots Idx
  /-- `REF`: which reflector (R18). -/
  ref : RefSel
  /-- `PLUG[0..25]`: the plugboard table (R20). -/
  plug : Perm
deriving DecidableEq, Repr

/-- A staged list of the host: its element count `N` and its first three elements (R22, R23, R24, R51). -/
structure Staged (w : Nat) where
  n : BitVec 3
  elems : Slots (BitVec w)
deriving DecidableEq, Repr

/-- A letter in flight in the sequencer: the stage it stands at and the values R100 passes from stage to stage. These
three are the model's own (log entry 3). -/
structure InFlight where
  /-- The stage counter (R19, R29), the number of the stage that runs next. -/
  stage : BitVec 4
  /-- The character of the `ENCC` being executed. -/
  ch : Byte
  /-- The signal: `c0`, then `x1` to `x9` of R100. -/
  sig : Idx
deriving DecidableEq, Repr

/-- What the outside world can present to the block: a command word (R43), or the reset input (R143). -/
inductive HostEvent where
  | command (w : Word)
  | reset
deriving DecidableEq, Repr

/-- One engine instance, with the host's side of its port.
`engine` is `VALID` and the live registers in one: `none` is `VALID = 0`, in which "no engine exists" and the live
registers "hold no value" (R14, U5). `inbox` and `outbox` are the model's own (log entry 2). -/
structure State where
  /-- `VALID`, `SEL`, `RING`, `POS`, `REF`, `PLUG` (R14 to R20). -/
  engine : Option Engine
  /-- `S_ROT` (R22). -/
  sRot : Staged 4
  /-- `S_POS` (R23). -/
  sPos : Staged 5
  /-- `S_RING` (R24). -/
  sRing : Staged 5
  /-- `S_REF` (R25). -/
  sRef : Byte
  /-- `S_PLUG`, in the order the characters were appended (R26). -/
  sPlug : List Byte
  /-- The sequencer: `none` is idle (R19, R29). -/
  seq : Option InFlight
  /-- The events the host presents from now on, the next one first (R39). -/
  inbox : List HostEvent
  /-- The response words produced so far, the newest last (R46). -/
  outbox : List Word
deriving DecidableEq, Repr

/-- What the block does next (R39, R142, R143): hold its state, be reset, or run a code in a state. -/
inductive Fetch where
  | hold
  | reset
  | run (c : Code) (s : State)
deriving DecidableEq, Repr

/-- The state after reset (R29, R143): no engine, empty staging registers, an idle sequencer; nothing presented and
nothing answered yet. -/
def State.reset : State where
  engine := none
  sRot := ⟨0#3, ⟨0#4, 0#4, 0#4⟩⟩
  sPos := ⟨0#3, ⟨0#5, 0#5, 0#5⟩⟩
  sRing := ⟨0#3, ⟨0#5, 0#5, 0#5⟩⟩
  sRef := 0x00#8
  sPlug := []
  seq := none
  inbox := []
  outbox := []

end Sys2Proof.Machine
end

