-- ==== Sys2Proof/Machine/Ops.lean ====
section
/-! DEFINITION. The operations the meanings share: arithmetic modulo 26, tables, rotor slots, the response word, the
raising of an error (this block's only exception, R133), the guards of a command that needs an engine and of a stage
that needs a letter, and the fetch of the next code. There is no return from an error, "because nothing was entered"
(R134), and no memory access, because the block has no memory (R31). -/

namespace Sys2Proof.Machine

/-- What a meaning answers. -/
abbrev Result := Host.Outcome State Fault Refusal

/-- `n mod 26`, the mathematical remainder (R10). -/
def mod26 (n : Int) : Idx := ⟨(n % 26).toNat, by omega⟩

/-- The identity permutation, `P[i] = i` (R86). -/
def identityPerm : Perm :=
  #v[0, 1, 2, 3, 4, 5, 6, 7, 8, 9, 10, 11, 12, 13, 14, 15, 16, 17, 18, 19, 20, 21, 22, 23, 24, 25]

/-- The indices of the alphabet in order (R7). -/
def allIdx : List Idx := identityPerm.toList

/-- `T[i]` (R11). -/
def lookup (t : Perm) (i : Idx) : Idx := t[i]

/-- `T[a] <- b; T[b] <- a`, in this order (R86, R87). -/
def swapPair (t : Perm) (a b : Idx) : Perm := (t.set a b).set b a

/-- `inv(P)`, computed as D0 does: "for every i, `inverse[forward[i]] = i`" (R8, R75). -/
def inverse (p : Perm) : Perm := allIdx.foldl (fun q i => q.set (lookup p i) i) identityPerm

/-- The value of a slot. -/
def slotGet {α : Type} (v : Slots α) : Slot → α
  | .left => v.left
  | .middle => v.middle
  | .right => v.right

/-- The write of a slot. -/
def slotSet {α : Type} (v : Slots α) (k : Slot) (x : α) : Slots α :=
  match k with
  | .left => { v with left := x }
  | .middle => { v with middle := x }
  | .right => { v with right := x }

/-- The `STATUS` code of a status (R47). -/
def statusCode : Status → BitVec 4
  | .ok => 0x0#4
  | .configurationError => 0x1#4
  | .inputError => 0x2#4
  | .notConfigured => 0x3#4
  | .illegalCommand => 0x4#4

/-- `RW = {status[3:0], 20'b0, data[7:0]}` (R46). -/
def responseWord (st : Status) (data : Byte) : Word := (statusCode st).setWidth 32 <<< 28 ||| data.setWidth 32

/-- `respond(status, data)`: the command ends with this response word (R11, R46); between commands the sequencer is idle
(R19). -/
def State.respond (s : State) (st : Status) (data : Byte) : State :=
  { s with seq := none, outbox := s.outbox ++ [responseWord st data] }

/-- `raise <Error>(info)`: the command ends, no architectural state is changed by it, and the response word carries the
error's status and `info`; no vector, handler, saved context or sticky bit (R11, R133). -/
def State.raise (s : State) (err : Status) (info : Byte) : State := s.respond err info

/-- A command, or a stage of one, that needs an engine: with `VALID = 0` it ends with `NotConfigured` (R109, R130). -/
def State.withEngine (s : State) (k : Engine → Result) : Result :=
  match s.engine with
  | none => .next (s.raise .notConfigured 0x00#8)
  | some e => k e

/-- A stage works on the letter in flight (R100), inside an `ENCC`, which needs an engine (R118). -/
def State.withLetter (s : State) (k : Engine → InFlight → Result) : Result :=
  match s.seq with
  | none => .fault .sequencerIdle
  | some f => s.withEngine fun e => k e f

/-- The letter in flight goes on to stage `n` with the signal `x` (R100). -/
def State.toStage (s : State) (f : InFlight) (n : BitVec 4) (x : Idx) : State :=
  { s with seq := some { f with stage := n, sig := x } }

/-- The host's next event is taken from the port (R39). -/
def State.accept (s : State) : State := { s with inbox := s.inbox.tail }

/-- The reset event: every piece of state takes its reset value and no response word is produced; a command being
executed is abandoned (R143, U13). What the host has presented or received is the host's and stays. -/
def State.takeReset (s : State) : State :=
  { State.reset with inbox := s.inbox.tail, outbox := s.outbox }

/-- What runs next. The reset input acts at once, even on a letter in flight (R143). Otherwise a letter in flight goes on
before the next command is accepted (R39), and with nothing presented the state is held (R142). -/
def State.fetch (s : State) : Fetch :=
  match s.inbox, s.seq with
  | .reset :: _, _ => .reset
  | _, some f => .run (.stage f.stage) s
  | .command w :: _, none => .run (.command w) s.accept
  | [], none => .hold

/-- A code that the decoder rejects: an undecodable command word is `IllegalCommand` (R131), a stage number above 11 is
none of R100. -/
def reject (c : Code) (s : State) : Result :=
  match c with
  | .command _ => .next (s.raise .illegalCommand 0x00#8)
  | .stage n => .fault (.noSuchStage n)

end Sys2Proof.Machine
end

