-- ==== Sys2Proof/Machine/Catalog.lean ====
section
/-! DEFINITION. The wiring catalog of this hardware (40_wiring_catalog.md): the printed index tables of R62, R63 and R65, the
fallback entries of R64 and R66, and the notch sets. The wirings and the notches of IV and V are the spec's own general
knowledge, not its source's (G1 to G3, log entry 5). -/

namespace Sys2Proof.Machine

/-- Rotor I, `EKMFLGDQVZNTOWYHXUSPAIBRCJ` (R62). -/
def wiringI : Perm :=
  #v[4, 10, 12, 5, 11, 6, 3, 16, 21, 25, 13, 19, 14, 22, 24, 7, 23, 20, 18, 15, 0, 8, 1, 17, 2, 9]

/-- Rotor II, `AJDKSIRUXBLHWTMCQGZNPYFVOE` (R62). -/
def wiringII : Perm :=
  #v[0, 9, 3, 10, 18, 8, 17, 20, 23, 1, 11, 7, 22, 19, 12, 2, 16, 6, 25, 13, 15, 24, 5, 21, 14, 4]

/-- Rotor III, `BDFHJLCPRTXVZNYEIWGAKMUSQO` (R62). -/
def wiringIII : Perm :=
  #v[1, 3, 5, 7, 9, 11, 2, 15, 17, 19, 23, 21, 25, 13, 24, 4, 8, 22, 6, 0, 10, 12, 20, 18, 16, 14]

/-- Rotor IV, `ESOVPZJAYQUIRHXLNFTGKDCMWB` (R62). -/
def wiringIV : Perm :=
  #v[4, 18, 14, 21, 15, 25, 9, 0, 24, 16, 20, 8, 17, 7, 23, 11, 13, 5, 19, 6, 10, 3, 2, 12, 22, 1]

/-- Rotor V, `VZBRGITYUPSDNHLXAWMJQOFECK` (R62). -/
def wiringV : Perm :=
  #v[21, 25, 1, 17, 6, 8, 19, 24, 20, 15, 18, 3, 13, 7, 11, 23, 0, 22, 12, 9, 16, 14, 5, 4, 2, 10]

/-- Rotor VI, `JPGVOUMFYQBENHZRDKASXLICTW` (R63). -/
def wiringVI : Perm :=
  #v[9, 15, 6, 21, 14, 20, 12, 5, 24, 16, 1, 4, 13, 7, 25, 17, 3, 10, 0, 18, 23, 11, 8, 2, 19, 22]

/-- Rotor VII, `NZJHGRCXMYSWBOUFAIVLPEKQDT` (R63). -/
def wiringVII : Perm :=
  #v[13, 25, 9, 7, 6, 17, 2, 23, 12, 24, 18, 22, 1, 14, 20, 5, 0, 8, 21, 11, 15, 4, 10, 16, 3, 19]

/-- Rotor VIII, `FKQHTLXOCBJSPDZRAMEWNIUYGV` (R63). -/
def wiringVIII : Perm :=
  #v[5, 10, 16, 7, 19, 11, 23, 14, 2, 1, 9, 18, 15, 3, 25, 17, 0, 12, 4, 22, 13, 8, 20, 24, 6, 21]

/-- Reflector B, `YRUHQSLDPXNGOKMIEBFZCWVJAT` (R65). -/
def reflectorB : Perm :=
  #v[24, 17, 20, 7, 16, 18, 11, 3, 15, 23, 13, 6, 14, 10, 12, 8, 4, 1, 5, 25, 2, 22, 21, 9, 0, 19]

/-- Reflector C, `FVPJIAOYEDRZXWGCTKUQSBNMHL` (R65). -/
def reflectorC : Perm :=
  #v[5, 21, 15, 9, 8, 0, 14, 24, 4, 3, 17, 25, 23, 22, 6, 2, 19, 10, 20, 16, 18, 1, 13, 12, 7, 11]

/-- The fallback reflector, `i` to `25 - i` (R66, D21). -/
def reflectorFallback : Perm :=
  #v[25, 24, 23, 22, 21, 20, 19, 18, 17, 16, 15, 14, 13, 12, 11, 10, 9, 8, 7, 6, 5, 4, 3, 2, 1, 0]

/-- `CAT_WIRING` (R48, R62 to R64): codes 0 and 9 to 15 are the identity fallback. -/
def catWiring (s : Sel) : Perm :=
  match s with
  | 1#4 => wiringI
  | 2#4 => wiringII
  | 3#4 => wiringIII
  | 4#4 => wiringIV
  | 5#4 => wiringV
  | 6#4 => wiringVI
  | 7#4 => wiringVII
  | 8#4 => wiringVIII
  | _ => identityPerm

/-- `CAT_NOTCH` (R62 to R64). -/
def catNotch (s : Sel) : List Idx :=
  match s with
  | 1#4 => [16]
  | 2#4 => [4]
  | 3#4 => [21]
  | 4#4 => [9]
  | 5#4 => [25]
  | 6#4 => [12, 25]
  | 7#4 => [12, 25]
  | 8#4 => [12, 25]
  | _ => [0]

/-- `CAT_REFL` (R65, R66). -/
def catRefl (r : RefSel) : Perm :=
  match r with
  | .b => reflectorB
  | .c => reflectorC
  | .fallback => reflectorFallback

/-- The catalog of this hardware (R6, R61). -/
def catalog : Catalog where
  wiring := catWiring
  notch := catNotch
  refl := catRefl

end Sys2Proof.Machine
end

