-- ==== Sys2Proof/Machine/Flags.lean ====
section
/-! DEFINITION. The status bits. The block has no condition codes (R27): its one status bit is `VALID`, and the one mask
it computes is the cause mask of a `ConfigurationError`. -/

namespace Sys2Proof.Machine

/-- `VALID`: an engine has been constructed (R14). -/
def State.valid (s : State) : Bool := s.engine.isSome

/-- One cause bit of the mask, at its place. -/
def causeBit (holds : Bool) (bit : Byte) : Byte := if holds then bit else 0x00#8

/-- The cause mask of `ENG.CONSTRUCT`'s validation, `DATA` of a `ConfigurationError` (R94, R128): bit 0 rotor list, bit 1
position list, bit 2 ring-setting list, bit 3 reflector name. -/
def State.causeMask (s : State) : Byte :=
  causeBit (s.sRot.n != 3#3) 0x01#8 ||| causeBit (s.sPos.n != 3#3) 0x02#8 |||
    causeBit (s.sRing.n != 3#3) 0x04#8 ||| causeBit (s.sRef == 0x00#8) 0x08#8

end Sys2Proof.Machine
end

