-- ==== Sys2Proof/Machine/Operands.lean ====
section
/-! DEFINITION. The operand forms: rotor slots, character codes, reflector name codes and 5-bit list elements (R44, R48
to R50). Rotor select codes need no conversion: all sixteen are legal (R48). -/

namespace Sys2Proof.Machine

/-- The slot named by the field `K`: 0 left, 1 middle, 2 right; 3 names none (R44). -/
def slotOfField (k : BitVec 2) : Option Slot :=
  match k with
  | 0#2 => some .left
  | 1#2 => some .middle
  | 2#2 => some .right
  | _ => none

/-- `is_upper` (R50). -/
def isUpper (ch : Byte) : Bool := 0x41#8 ≤ ch && ch ≤ 0x5A#8

/-- `is_lower` (R50). -/
def isLower (ch : Byte) : Bool := 0x61#8 ≤ ch && ch ≤ 0x7A#8

/-- `is_letter` (R50). -/
def isLetter (ch : Byte) : Bool := isUpper ch || isLower ch

/-- `upper` (R50). -/
def upperOf (ch : Byte) : Byte := if isLower ch then ch - 0x20#8 else ch

/-- `idx` of a letter (R50); a code that is no letter has none. The reduction that `Fin.ofNat` makes never acts: the
difference is at most 25. -/
def letterIdx (ch : Byte) : Option Idx :=
  if isLetter ch then some (Fin.ofNat 26 (upperOf ch - 0x41#8).toNat) else none

/-- `let(i)`: the upper-case letter of an index (R50). -/
def letterOf (i : Idx) : Byte := 0x41#8 + BitVec.ofNat 8 i.val

/-- `zext_8` of a position (R46, R117). -/
def indexByte (i : Idx) : Byte := BitVec.ofNat 8 i.val

/-- `value mod 26` of a staged 5-bit element (R95, D9). -/
def reduceElement (v : BitVec 5) : Idx := mod26 v.toNat

/-- The three elements of a staged list, each reduced modulo 26 (R95). -/
def reduceElements (v : Slots (BitVec 5)) : Slots Idx :=
  ⟨reduceElement v.left, reduceElement v.middle, reduceElement v.right⟩

/-- The reflector a name code selects: `0x42` is B, `0x43` is C, any other non-empty name the fallback (R49, R95). -/
def reflectorOfName (code : Byte) : RefSel :=
  if code = 0x42#8 then .b else if code = 0x43#8 then .c else .fallback

end Sys2Proof.Machine
end

