-- ==== Sys2Proof/Machine/Plugboard.lean ====
section
/-! DEFINITION. The plugboard preprocessor `PLUG.PARSE` (R82 to R87), the plugboard operation `PLUG.FWD` (R88), and the
bounded digest of R91 that a chip may keep in place of the staged specification. -/

namespace Sys2Proof.Machine

/-- The candidate tokens of a specification, `cur` being the letters of the token that is open: the maximal runs of
letters, in order; every other code is a separator (R83, R84). -/
def plugTokensFrom (cur : List Idx) : List Byte → List (List Idx)
  | [] => if cur = [] then [] else [cur]
  | ch :: rest =>
    match letterIdx ch with
    | some i => plugTokensFrom (cur ++ [i]) rest
    | none => if cur = [] then plugTokensFrom [] rest else cur :: plugTokensFrom [] rest

/-- The tokens of a whole specification (R84). -/
def plugTokens (spec : List Byte) : List (List Idx) := plugTokensFrom [] spec

/-- Validation and building, front to back (R85 to R87): `none` when a token's length is not 2 or one of its letters is
used by an earlier pair. -/
def plugPairs (p : Perm) (used : List Idx) : List (List Idx) → Option Perm
  | [] => some p
  | [a, b] :: rest => if a ∈ used ∨ b ∈ used then none else plugPairs (swapPair p a b) (a :: b :: used) rest
  | _ :: _ => none

/-- `PLUG.PARSE(spec)`: all or nothing, and no error (R82, R86, R87, R90). -/
def plugParse (spec : List Byte) : Perm := (plugPairs identityPerm [] (plugTokens spec)).getD identityPerm

/-- `PLUG.FWD(c)` (R88). -/
def plugFwd (e : Engine) (c : Idx) : Idx := lookup e.plug c

/-- The digest of R91: `BAD`, `USED` (26 bits), `MAP`, and the open token as `TLEN`, `T0`, `T1`. -/
structure PlugDigest where
  bad : Bool
  used : BitVec 26
  map : Perm
  tlen : BitVec 2
  t0 : Idx
  t1 : Idx
deriving DecidableEq, Repr

/-- `PLUGCLR` on the digest (R91). `T0` and `T1` are not read while `TLEN` is 0. -/
def plugDigestClear : PlugDigest := ⟨false, 0#26, identityPerm, 0#2, 0, 0⟩

/-- Whether an index is in `USED`. -/
def plugDigestUses (d : PlugDigest) (i : Idx) : Bool := d.used.getLsbD i.val

/-- `USED + {a, b}`. -/
def plugDigestUse (used : BitVec 26) (a b : Idx) : BitVec 26 :=
  used ||| (1#26 <<< a.val) ||| (1#26 <<< b.val)

/-- `close()`: the end of a token (R91). -/
def plugDigestClose (d : PlugDigest) : PlugDigest :=
  if d.tlen = 0#2 then d
  else if d.tlen = 2#2 then
    if plugDigestUses d d.t0 || plugDigestUses d d.t1 then { d with bad := true, tlen := 0#2 }
    else { d with used := plugDigestUse d.used d.t0 d.t1, map := swapPair d.map d.t0 d.t1, tlen := 0#2 }
  else { d with bad := true, tlen := 0#2 }

/-- `PLUGCH ch` on the digest (R91). -/
def plugDigestPush (d : PlugDigest) (ch : Byte) : PlugDigest :=
  match letterIdx ch with
  | none => plugDigestClose d
  | some i =>
    if d.tlen = 0#2 then { d with t0 := i, tlen := 1#2 }
    else if d.tlen = 1#2 then { d with t1 := i, tlen := 2#2 }
    else { d with tlen := 3#2 }

/-- The result at `BUILD`: `close()` on a copy, then identity if `BAD`, else `MAP` (R91). -/
def plugDigestResult (d : PlugDigest) : Perm :=
  if (plugDigestClose d).bad then identityPerm else (plugDigestClose d).map

end Sys2Proof.Machine
end

