-- ==== Sys2Proof/Machine/Rotor.lean ====
section
/-! DEFINITION. The rotor operations (41_rotor.md) and the reflector operation (42_reflector.md), over any catalog. -/

namespace Sys2Proof.Machine

/-- `shift(k) = POS[k] - RING[k]`, an ordinary integer subtraction (R71). -/
def rotorShift (e : Engine) (k : Slot) : Int := ((slotGet e.pos k).val : Int) - ((slotGet e.ring k).val : Int)

/-- The formula of both passes, `(wiring[(c + shift + 26) mod 26] - shift + 26) mod 26` (R72, R74). -/
def rotorPass (table : Perm) (shift : Int) (c : Idx) : Idx :=
  let i := mod26 ((c.val : Int) + shift + 26)
  let w := lookup table i
  mod26 ((w.val : Int) - shift + 26)

/-- `FWD[k]`: the forward wiring of the slot's rotor type (R21). -/
def forwardWiring (cat : Catalog) (e : Engine) (k : Slot) : Perm := cat.wiring (slotGet e.sel k)

/-- `BWD[k] = inv(FWD[k])` (R21, R75). -/
def backwardWiring (cat : Catalog) (e : Engine) (k : Slot) : Perm := inverse (forwardWiring cat e k)

/-- `ROT.FWD(k, c)` (R72). -/
def rotFwd (cat : Catalog) (e : Engine) (k : Slot) (c : Idx) : Idx :=
  rotorPass (forwardWiring cat e k) (rotorShift e k) c

/-- `ROT.BWD(k, c)` (R74). -/
def rotBwd (cat : Catalog) (e : Engine) (k : Slot) (c : Idx) : Idx :=
  rotorPass (backwardWiring cat e k) (rotorShift e k) c

/-- `ROT.ATNOTCH(k)`: `POS[k] in NOTCH[k]`; the ring setting plays no part (R76). -/
def rotAtNotch (cat : Catalog) (e : Engine) (k : Slot) : Bool :=
  (cat.notch (slotGet e.sel k)).contains (slotGet e.pos k)

/-- `ROT.TURNOVER(k)`: `POS[k] <- (POS[k] + 1) mod 26` (R77). -/
def rotTurnover (e : Engine) (k : Slot) : Engine :=
  { e with pos := slotSet e.pos k (mod26 (((slotGet e.pos k).val : Int) + 1)) }

/-- `REFL.FWD(c)`: `RFL[c]` with `RFL = CAT_REFL(REF)` (R79). -/
def reflFwd (cat : Catalog) (e : Engine) (c : Idx) : Idx := lookup (cat.refl e.ref) c

end Sys2Proof.Machine
end

