-- ==== Sys2Proof/Machine/Engine.lean ====
section
/-! DEFINITION. The cipher engine (44_engine.md): construction, stepping, the signal path, encipherment of a character and
of a message, over any catalog. -/

namespace Sys2Proof.Machine

/-- `ENG.CONSTRUCT`, the effect when validation passes: the live state of the staged configuration (R95). -/
def engineOfStaging (s : State) : Engine where
  sel := s.sRot.elems
  ring := reduceElements s.sRing.elems
  pos := reduceElements s.sPos.elems
  ref := reflectorOfName s.sRef
  plug := plugParse s.sPlug

/-- `ENG.STEP`, the double-stepping transition (R96). -/
def engStep (cat : Catalog) (e : Engine) : Engine :=
  let stepped :=
    if rotAtNotch cat e .middle then rotTurnover (rotTurnover e .middle) .left
    else if rotAtNotch cat e .right then rotTurnover e .middle
    else e
  rotTurnover stepped .right

/-- `ENG.PATH(c0)`, the double-pass signal path on the positions as they stand (R99). -/
def engPath (cat : Catalog) (e : Engine) (c0 : Idx) : Idx :=
  let x1 := plugFwd e c0
  let x2 := rotFwd cat e .right x1
  let x3 := rotFwd cat e .middle x2
  let x4 := rotFwd cat e .left x3
  let x5 := reflFwd cat e x4
  let x6 := rotBwd cat e .left x5
  let x7 := rotBwd cat e .middle x6
  let x8 := rotBwd cat e .right x7
  plugFwd e x8

/-- `ENG.CHAR(ch)`: a code that is no letter comes back unchanged and nothing moves; a letter is stepped, then enciphered
(R101 to R103). -/
def engChar (cat : Catalog) (e : Engine) (ch : Byte) : Engine × Byte :=
  match letterIdx ch with
  | none => (e, ch)
  | some c0 => (engStep cat e, letterOf (engPath cat (engStep cat e) c0))

/-- `ENG.MSG(text)`: `ENG.CHAR` of every character, first to last (R104). -/
def engMsg (cat : Catalog) (e : Engine) : List Byte → Engine × List Byte
  | [] => (e, [])
  | ch :: rest =>
    let r := engChar cat e ch
    let t := engMsg cat r.1 rest
    (t.1, r.2 :: t.2)

end Sys2Proof.Machine
end

