-- ==== Sys2Proof/Machine/Commands.lean ====
section
/-! DEFINITION. The meanings of the nine host commands (45_commands.md). Each ends with exactly one response word (R109);
an error is a response with an error status after which the machine goes on (R133, R134). -/

namespace Sys2Proof.Machine

/-- `SETROT`: `S_ROT <- {N, SL, SM, SR}` (R110). -/
def execSetrot (n : BitVec 3) (sl sm sr : BitVec 4) (s : State) : Result :=
  .next ({ s with sRot := ⟨n, ⟨sl, sm, sr⟩⟩ }.respond .ok 0x00#8)

/-- `SETPOS`: `S_POS <- {N, VL, VM, VR}` (R111). -/
def execSetpos (n : BitVec 3) (vl vm vr : BitVec 5) (s : State) : Result :=
  .next ({ s with sPos := ⟨n, ⟨vl, vm, vr⟩⟩ }.respond .ok 0x00#8)

/-- `SETRING`: `S_RING <- {N, VL, VM, VR}` (R112). -/
def execSetring (n : BitVec 3) (vl vm vr : BitVec 5) (s : State) : Result :=
  .next ({ s with sRing := ⟨n, ⟨vl, vm, vr⟩⟩ }.respond .ok 0x00#8)

/-- `SETREF`: `S_REF <- CH` (R113). -/
def execSetref (ch : Byte) (s : State) : Result :=
  .next ({ s with sRef := ch }.respond .ok 0x00#8)

/-- `PLUGCLR`: `S_PLUG <- []` (R114). -/
def execPlugclr (s : State) : Result :=
  .next ({ s with sPlug := [] }.respond .ok 0x00#8)

/-- `PLUGCH`: `S_PLUG <- S_PLUG ++ [CH]` (R115). -/
def execPlugch (ch : Byte) (s : State) : Result :=
  .next ({ s with sPlug := s.sPlug ++ [ch] }.respond .ok 0x00#8)

/-- `BUILD`: validation (R94), then the whole live state at once and `VALID <- 1` (R95, R116). -/
def execBuild (s : State) : Result :=
  if s.causeMask = 0x00#8 then .next ({ s with engine := some (engineOfStaging s) }.respond .ok 0x00#8)
  else .next (s.raise .configurationError s.causeMask)

/-- `ENCC`: `NotConfigured`, then `InputError`, then `ENG.CHAR` (R118, R135). -/
def execEncc (cnt : BitVec 2) (ch : Byte) (s : State) : Result :=
  s.withEngine fun e =>
    if cnt = 1#2 then .next ({ s with engine := some (engChar catalog e ch).1 }.respond .ok (engChar catalog e ch).2)
    else .next (s.raise .inputError 0x00#8)

/-- `RDPOS`: the position of a slot, an index and not a letter (R117); the decoder lets no `K = 3` through, and for it the
answer is `IllegalCommand`, before `NotConfigured` (R131, R135). -/
def execRdpos (k : BitVec 2) (s : State) : Result :=
  match slotOfField k with
  | none => .next (s.raise .illegalCommand 0x00#8)
  | some slot => s.withEngine fun e => .next (s.respond .ok (indexByte (slotGet e.pos slot)))

end Sys2Proof.Machine
end

