-- ==== Sys2Proof/Machine/Stages.lean ====
section
/-! DEFINITION. The meanings of the twelve internal stages of one letter (R100). A stage is no command: no word of the
host reaches one (R41), and `ENCC` is atomic (R38). A stage runs on the letter that stands in flight in the sequencer,
does the one operation R100 gives it, and hands the signal to the next stage; run in order, the twelve do what one
`ENCC` of a letter does (log entry 3). -/

namespace Sys2Proof.Machine

/-- A stage that only transforms the signal: it reads the live state, writes nothing of it, and goes on to stage `n`
(R99, R100). -/
def signalStage (n : BitVec 4) (op : Engine → Idx → Idx) (s : State) : Result :=
  s.withLetter fun e f => .next (s.toStage f n (op e f.sig))

/-- Stage 0, `CLASSIFY`: a non-letter leaves here with `out = ch`; a letter goes on with `c0 = idx(ch)` (R100, R102). -/
def execClassify (s : State) : Result :=
  s.withLetter fun _ f =>
    match letterIdx f.ch with
    | none => .next (s.respond .ok f.ch)
    | some c0 => .next (s.toStage f 1#4 c0)

/-- Stage 1, `STEP`: `ENG.STEP` (R96). -/
def execStep (s : State) : Result :=
  s.withLetter fun e f => .next ({ s with engine := some (engStep catalog e) }.toStage f 2#4 f.sig)

/-- Stage 2, `PLUG_IN`: `x1 = PLUG.FWD(c0)` (R88). -/
def execPlugIn (s : State) : Result := signalStage 3#4 plugFwd s

/-- Stage 3, `R_FWD`: `x2 = ROT.FWD(R, x1)` (R72). -/
def execRFwd (s : State) : Result := signalStage 4#4 (fun e x => rotFwd catalog e .right x) s

/-- Stage 4, `M_FWD`: `x3 = ROT.FWD(M, x2)` (R72). -/
def execMFwd (s : State) : Result := signalStage 5#4 (fun e x => rotFwd catalog e .middle x) s

/-- Stage 5, `L_FWD`: `x4 = ROT.FWD(L, x3)` (R72). -/
def execLFwd (s : State) : Result := signalStage 6#4 (fun e x => rotFwd catalog e .left x) s

/-- Stage 6, `REFL`: `x5 = REFL.FWD(x4)` (R79). -/
def execRefl (s : State) : Result := signalStage 7#4 (fun e x => reflFwd catalog e x) s

/-- Stage 7, `L_BWD`: `x6 = ROT.BWD(L, x5)` (R74). -/
def execLBwd (s : State) : Result := signalStage 8#4 (fun e x => rotBwd catalog e .left x) s

/-- Stage 8, `M_BWD`: `x7 = ROT.BWD(M, x6)` (R74). -/
def execMBwd (s : State) : Result := signalStage 9#4 (fun e x => rotBwd catalog e .middle x) s

/-- Stage 9, `R_BWD`: `x8 = ROT.BWD(R, x7)` (R74). -/
def execRBwd (s : State) : Result := signalStage 10#4 (fun e x => rotBwd catalog e .right x) s

/-- Stage 10, `PLUG_OUT`: `x9 = PLUG.FWD(x8)` (R88). -/
def execPlugOut (s : State) : Result := signalStage 11#4 plugFwd s

/-- Stage 11, `EMIT`: `out = let(x9)`, the response of the command (R102). -/
def execEmit (s : State) : Result :=
  s.withLetter fun _ f => .next (s.respond .ok (letterOf f.sig))

end Sys2Proof.Machine
end

