-- ==== Sys2Proof/Machine/Dispatch.lean ====
section
/-! DEFINITION. The dispatch: one arm for each constructor of Instr, each one direct call of its meaning. -/

namespace Sys2Proof.Machine

def exec (i : Instr) (s : State) : Host.Outcome State Fault Refusal :=
  match i with
  | .setrot n sl sm sr => Sys2Proof.Machine.execSetrot n sl sm sr s
  | .setpos n vl vm vr => Sys2Proof.Machine.execSetpos n vl vm vr s
  | .setring n vl vm vr => Sys2Proof.Machine.execSetring n vl vm vr s
  | .setref ch => Sys2Proof.Machine.execSetref ch s
  | .plugclr => Sys2Proof.Machine.execPlugclr s
  | .plugch ch => Sys2Proof.Machine.execPlugch ch s
  | .build => Sys2Proof.Machine.execBuild s
  | .encc cnt ch => Sys2Proof.Machine.execEncc cnt ch s
  | .rdpos k => Sys2Proof.Machine.execRdpos k s
  | .classify => Sys2Proof.Machine.execClassify s
  | .step => Sys2Proof.Machine.execStep s
  | .plugIn => Sys2Proof.Machine.execPlugIn s
  | .rFwd => Sys2Proof.Machine.execRFwd s
  | .mFwd => Sys2Proof.Machine.execMFwd s
  | .lFwd => Sys2Proof.Machine.execLFwd s
  | .refl => Sys2Proof.Machine.execRefl s
  | .lBwd => Sys2Proof.Machine.execLBwd s
  | .mBwd => Sys2Proof.Machine.execMBwd s
  | .rBwd => Sys2Proof.Machine.execRBwd s
  | .plugOut => Sys2Proof.Machine.execPlugOut s
  | .emit => Sys2Proof.Machine.execEmit s

end Sys2Proof.Machine
end

