-- ==== Sys2Proof/Machine/Step.lean ====
section
/-! DEFINITION. One step of the machine, and the placing of an instruction where the next step takes it. -/

namespace Sys2Proof.Machine

/-- One step: hold, be reset, or decode the code that comes next and run it (R39, R109, R142, R143). -/
def step (s : State) : Host.Outcome State Fault Refusal :=
  match s.fetch with
  | .hold => .next s
  | .reset => .next s.takeReset
  | .run c t =>
    match decode c with
    | .ok i => exec i t
    | .error _ => reject c t

/-- The host's events without the reset inputs at their head. -/
def dropResets : List HostEvent → List HostEvent
  | .reset :: rest => dropResets rest
  | events => events

/-- `s` with the instruction of a row of the opcode table as the one that the next step runs. A command word is
presented first in the host's inbox, with the sequencer idle, since a command is accepted only then (R39). A stage is
placed in the sequencer's stage counter, and a reset input that stands first is taken away, since it would act before it. A
value that its width cannot hold becomes an undecodable one. -/
def State.withFetchWord (s : State) (nbits w : Nat) : State :=
  if nbits ≤ 8 then
    let n : BitVec 4 := if w < 16 then BitVec.ofNat 4 w else 15#4
    let f : InFlight := s.seq.getD ⟨0#4, 0x00#8, 0⟩
    { s with seq := some { f with stage := n }, inbox := dropResets s.inbox }
  else
    let v : Word := if w < 4294967296 then BitVec.ofNat 32 w else 0xFFFFFFFF#32
    { s with seq := none, inbox := .command v :: s.inbox }

end Sys2Proof.Machine
end

