-- ==== Sys2Proof/Machine/Pseudo.lean ====
section
/-! DEFINITION. The three pseudo-instructions (R119 to R121) and their expansions into commands, and what a host that
issues commands presents and reads. -/

namespace Sys2Proof.Machine

/-- `ENCM "text"`: one `ENCC c` for each character, first to last (R119). -/
def encmCommands (text : List Byte) : List Instr := text.map fun ch => .encc 1#2 ch

/-- `PLUGSTR "text"`: `PLUGCLR`, then one `PLUGCH c` for each character (R120). -/
def plugstrCommands (text : List Byte) : List Instr := .plugclr :: text.map fun ch => .plugch ch

/-- `CONFIG (rl, rm, rr), (pl, pm, pr), (gl, gm, gr), ref, "plug"` (R121). -/
def configCommands (rotors : Slots Sel) (positions rings : Slots (BitVec 5)) (ref : Byte) (plug : List Byte) :
    List Instr :=
  [.setrot 3#3 rotors.left rotors.middle rotors.right,
    .setpos 3#3 positions.left positions.middle positions.right,
    .setring 3#3 rings.left rings.middle rings.right,
    .setref ref] ++ plugstrCommands plug ++ [.build]

/-- The event by which a host presents a command. A stage has no command word and cannot be presented (R41). -/
def presented (i : Instr) : Option HostEvent :=
  match encode i with
  | .command w => some (.command w)
  | .stage _ => none

/-- The events by which a host presents a list of commands, in order. -/
def presentedAll (is : List Instr) : List HostEvent := is.filterMap presented

/-- `DATA = RW[7:0]` of a response word (R46): what `ENCM` collects (R119). -/
def responseData (rw : Word) : Byte := rw.extractLsb' 0 8

/-- `STATUS = RW[31:28]` of a response word (R46). -/
def responseStatus (rw : Word) : BitVec 4 := rw.extractLsb' 28 4

end Sys2Proof.Machine
end

