-- ==== Sys2Proof/Machine/Assembler.lean ====
section
/-! DEFINITION. The assembler's textual form of the commands (R56) and of the pseudo-instructions (R119 to R121): one
command a line, `;` starts a comment. It is the host's side, no part of the block: nothing in `step` uses it. -/

namespace Sys2Proof.Machine

/-- The parts of a line: a word (a mnemonic, a name or a number), a character in single quotes, a text in double
quotes, and the punctuation. -/
inductive AsmToken where
  | word (cs : List Char)
  | quoted (c : Char)
  | text (cs : List Char)
  | comma
  | openParen
  | closeParen
deriving DecidableEq, Repr

/-- Where the reading of a line stands: in plain text after the letters `cur` of a word, after a single quote, or in a
text after its characters `acc`. -/
inductive AsmMode where
  | plain (cur : List Char)
  | quote (c : Option Char)
  | inText (acc : List Char)
deriving DecidableEq, Repr

/-- The word `cur`, if it has a letter, before the tokens `ts`. -/
def asmWord (cur : List Char) (ts : List AsmToken) : List AsmToken := if cur = [] then ts else .word cur :: ts

/-- The tokens of a line. The character codes are those of the source text: 9 tab, 13 carriage return, 32 blank, 34 double
quote, 39 single quote, 40 and 41 parentheses, 44 comma, 59 semicolon. A semicolon inside quotes is a character. -/
def asmTokens : AsmMode → List Char → Option (List AsmToken)
  | .plain cur, [] => some (asmWord cur [])
  | .quote _, [] => none
  | .inText _, [] => none
  | .plain cur, c :: cs =>
    if c.toNat = 59 then some (asmWord cur [])
    else if c.toNat = 32 ∨ c.toNat = 9 ∨ c.toNat = 13 then (asmTokens (.plain []) cs).map (asmWord cur)
    else if c.toNat = 44 then (asmTokens (.plain []) cs).map fun ts => asmWord cur (.comma :: ts)
    else if c.toNat = 40 then (asmTokens (.plain []) cs).map fun ts => asmWord cur (.openParen :: ts)
    else if c.toNat = 41 then (asmTokens (.plain []) cs).map fun ts => asmWord cur (.closeParen :: ts)
    else if c.toNat = 39 then (asmTokens (.quote none) cs).map (asmWord cur)
    else if c.toNat = 34 then (asmTokens (.inText []) cs).map (asmWord cur)
    else asmTokens (.plain (cur ++ [c])) cs
  | .quote none, c :: cs => asmTokens (.quote (some c)) cs
  | .quote (some x), c :: cs =>
    if c.toNat = 39 then (asmTokens (.plain []) cs).map fun ts => .quoted x :: ts else none
  | .inText acc, c :: cs =>
    if c.toNat = 34 then (asmTokens (.plain []) cs).map fun ts => .text acc :: ts
    else asmTokens (.inText (acc ++ [c])) cs

/-- The value of a digit in base 16; a decimal digit has a value below 10. -/
def asmDigit (c : Char) : Option Nat :=
  if 48 ≤ c.toNat ∧ c.toNat ≤ 57 then some (c.toNat - 48)
  else if 65 ≤ c.toNat ∧ c.toNat ≤ 70 then some (c.toNat - 55)
  else if 97 ≤ c.toNat ∧ c.toNat ≤ 102 then some (c.toNat - 87)
  else none

/-- The value of the digits `cs` in a base, after the digits already read. -/
def asmNumberFrom (base : Nat) (n : Nat) : List Char → Option Nat
  | [] => some n
  | c :: cs =>
    match asmDigit c with
    | some d => if d < base then asmNumberFrom base (n * base + d) cs else none
    | none => none

/-- A decimal number below `2 ^ w` as a field of `w` bits. -/
def asmDecimal (w : Nat) (cs : List Char) : Option (BitVec w) :=
  if cs = [] then none
  else
    match asmNumberFrom 10 0 cs with
    | some n => if n < 2 ^ w then some (BitVec.ofNat w n) else none
    | none => none

/-- A raw code `0xhh`. -/
def asmHexByte (cs : List Char) : Option Byte :=
  if cs.take 2 = "0x".toList ∧ cs.length = 4 then (asmNumberFrom 16 0 (cs.drop 2)).map (BitVec.ofNat 8) else none

/-- A rotor operand: one of the eight upper-case Roman numerals, or `?d` for a raw select code. -/
def asmRotor (cs : List Char) : Option Sel :=
  if cs = "I".toList then some 1#4
  else if cs = "II".toList then some 2#4
  else if cs = "III".toList then some 3#4
  else if cs = "IV".toList then some 4#4
  else if cs = "V".toList then some 5#4
  else if cs = "VI".toList then some 6#4
  else if cs = "VII".toList then some 7#4
  else if cs = "VIII".toList then some 8#4
  else if cs.take 1 = "?".toList then asmDecimal 4 (cs.drop 1)
  else none

/-- A reflector operand: `B`, `C`, `NONE`, or a raw code. -/
def asmReflector (cs : List Char) : Option Byte :=
  if cs = "B".toList then some 0x42#8
  else if cs = "C".toList then some 0x43#8
  else if cs = "NONE".toList then some 0x00#8
  else asmHexByte cs

/-- The code of a printable character of the source text. -/
def asmPrintable (c : Char) : Option Byte :=
  if 32 ≤ c.toNat ∧ c.toNat ≤ 126 then some (BitVec.ofNat 8 c.toNat) else none

/-- A character operand: a printable character in single quotes, or a raw code. -/
def asmChar : AsmToken → Option Byte
  | .quoted c => asmPrintable c
  | .word cs => asmHexByte cs
  | _ => none

/-- The codes of a text operand. -/
def asmText : List Char → Option (List Byte)
  | [] => some []
  | c :: cs =>
    match asmPrintable c, asmText cs with
    | some b, some bs => some (b :: bs)
    | _, _ => none

/-- A rotor slot operand. -/
def asmSlot (cs : List Char) : Option (BitVec 2) :=
  if cs = "L".toList then some 0#2
  else if cs = "M".toList then some 1#2
  else if cs = "R".toList then some 2#2
  else none

/-- The operands `a, b, c` at the front of some tokens, each read by `read`, and the tokens after them. -/
def asmTriple {α : Type} (read : List Char → Option α) : List AsmToken → Option (Slots α × List AsmToken)
  | .word a :: .comma :: .word b :: .comma :: .word c :: rest =>
    match read a, read b, read c with
    | some x, some y, some z => some (⟨x, y, z⟩, rest)
    | _, _, _ => none
  | _ => none

/-- The operands `(a, b, c),` at the front of some tokens. -/
def asmGroup {α : Type} (read : List Char → Option α) : List AsmToken → Option (Slots α × List AsmToken)
  | .openParen :: ts =>
    match asmTriple read ts with
    | some (v, .closeParen :: .comma :: rest) => some (v, rest)
    | _ => none
  | _ => none

/-- The operands `n, a, b, c` of a list command, which end the line. -/
def asmList {α : Type} (read : List Char → Option α) : List AsmToken → Option (BitVec 3 × Slots α)
  | .word n :: .comma :: ts =>
    match asmDecimal 3 n, asmTriple read ts with
    | some k, some (v, []) => some (k, v)
    | _, _ => none
  | _ => none

/-- The operands `c` or `c, cnt` of `ENCC`; without `cnt` the count is 1. -/
def asmEncc : List AsmToken → Option Instr
  | [t] => (asmChar t).map fun ch => .encc 1#2 ch
  | [t, .comma, .word n] =>
    match asmChar t, asmDecimal 2 n with
    | some ch, some cnt => some (.encc cnt ch)
    | _, _ => none
  | _ => none

/-- The operands of `CONFIG` (R121). -/
def asmConfig (ts : List AsmToken) : Option (List Instr) :=
  match asmGroup asmRotor ts with
  | none => none
  | some (rotors, ts) =>
    match asmGroup (asmDecimal 5) ts with
    | none => none
    | some (positions, ts) =>
      match asmGroup (asmDecimal 5) ts with
      | some (rings, [.word ref, .comma, .text plug]) =>
        match asmReflector ref, asmText plug with
        | some r, some p => some (configCommands rotors positions rings r p)
        | _, _ => none
      | _ => none

/-- The one word operand of a command, which ends the line. -/
def asmOneWord {α : Type} (read : List Char → Option α) : List AsmToken → Option α
  | [.word a] => read a
  | _ => none

/-- The one text operand of a pseudo-instruction, which ends the line. -/
def asmOneText : List AsmToken → Option (List Byte)
  | [.text cs] => asmText cs
  | _ => none

/-- The commands of a mnemonic with its operands. -/
def asmCommand (m : List Char) (ts : List AsmToken) : Option (List Instr) :=
  if m = "SETROT".toList then
    (asmList asmRotor ts).map fun p => [.setrot p.1 p.2.left p.2.middle p.2.right]
  else if m = "SETPOS".toList then
    (asmList (asmDecimal 5) ts).map fun p => [.setpos p.1 p.2.left p.2.middle p.2.right]
  else if m = "SETRING".toList then
    (asmList (asmDecimal 5) ts).map fun p => [.setring p.1 p.2.left p.2.middle p.2.right]
  else if m = "SETREF".toList then (asmOneWord asmReflector ts).map fun ch => [.setref ch]
  else if m = "PLUGCLR".toList then if ts = [] then some [.plugclr] else none
  else if m = "PLUGCH".toList then
    match ts with
    | [t] => (asmChar t).map fun ch => [.plugch ch]
    | _ => none
  else if m = "BUILD".toList then if ts = [] then some [.build] else none
  else if m = "ENCC".toList then (asmEncc ts).map fun i => [i]
  else if m = "RDPOS".toList then (asmOneWord asmSlot ts).map fun k => [.rdpos k]
  else if m = "ENCM".toList then (asmOneText ts).map encmCommands
  else if m = "PLUGSTR".toList then (asmOneText ts).map plugstrCommands
  else if m = "CONFIG".toList then asmConfig ts
  else none

/-- The commands of one line (R56): none for a blank line or a comment; `none` for a line that is no command. -/
def assembleLine (line : List Char) : Option (List Instr) :=
  match asmTokens (.plain []) line with
  | none => none
  | some [] => some []
  | some (.word m :: ts) => asmCommand m ts
  | some _ => none

/-- The commands of a program, one line each, front to back. -/
def assemble : List (List Char) → Option (List Instr)
  | [] => some []
  | line :: lines =>
    match assembleLine line, assemble lines with
    | some is, some js => some (is ++ js)
    | _, _ => none

end Sys2Proof.Machine
end

