-- ==== Sys2Proof/Machine/OpcodeMap.lean ====
section
/-! DEFINITION. The opcode map as R45 prints it: the `match` and the `mask` of each command, apart from the decoder, which is
written from the formats of R44. Statements hold the two against each other. -/

namespace Sys2Proof.Machine

/-- A row of the opcode map: a word `CW` is its command when `(CW & mask) = value` (R45). -/
structure OpcodeRow where
  mnemonic : String
  value : Word
  mask : Word
deriving DecidableEq, Repr

/-- The nine rows of R45, in its order. -/
def opcodeRows : List OpcodeRow :=
  [⟨"SETROT", 0x10000000#32, 0xF1FFF000#32⟩,
    ⟨"SETPOS", 0x20000000#32, 0xF1FF8000#32⟩,
    ⟨"SETRING", 0x30000000#32, 0xF1FF8000#32⟩,
    ⟨"SETREF", 0x40000000#32, 0xFFFFFF00#32⟩,
    ⟨"PLUGCLR", 0x50000000#32, 0xFFFFFFFF#32⟩,
    ⟨"PLUGCH", 0x60000000#32, 0xFFFFFF00#32⟩,
    ⟨"BUILD", 0x70000000#32, 0xFFFFFFFF#32⟩,
    ⟨"ENCC", 0x80000000#32, 0xFFFFFC00#32⟩,
    ⟨"RDPOS", 0x90000000#32, 0xFFFFFFFC#32⟩]

/-- The mnemonic of an instruction in the opcode table. -/
def mnemonicOf : Instr → String
  | .setrot _ _ _ _ => "SETROT"
  | .setpos _ _ _ _ => "SETPOS"
  | .setring _ _ _ _ => "SETRING"
  | .setref _ => "SETREF"
  | .plugclr => "PLUGCLR"
  | .plugch _ => "PLUGCH"
  | .build => "BUILD"
  | .encc _ _ => "ENCC"
  | .rdpos _ => "RDPOS"
  | .classify => "CLASSIFY"
  | .step => "STEP"
  | .plugIn => "PLUG_IN"
  | .rFwd => "R_FWD"
  | .mFwd => "M_FWD"
  | .lFwd => "L_FWD"
  | .refl => "REFL"
  | .lBwd => "L_BWD"
  | .mBwd => "M_BWD"
  | .rBwd => "R_BWD"
  | .plugOut => "PLUG_OUT"
  | .emit => "EMIT"

/-- The stages in the order of their numbers (R100). -/
def stageOrder : List String :=
  ["CLASSIFY", "STEP", "PLUG_IN", "R_FWD", "M_FWD", "L_FWD", "REFL", "L_BWD", "M_BWD", "R_BWD", "PLUG_OUT", "EMIT"]

/-- A code lies in the row of a mnemonic: its masked word is the row's value, or its number is the stage's place. -/
def inRow (mnemonic : String) : Code → Prop
  | .command w => ∃ r ∈ opcodeRows, r.mnemonic = mnemonic ∧ w &&& r.mask = r.value
  | .stage n => stageOrder[n.toNat]? = some mnemonic

end Sys2Proof.Machine
end

