-- ==== Sys2Proof/Safety.lean ====
section
/-! DEFINITION. What counts as a good state and as a sound catalog, in the terms the statements use. -/

namespace Sys2Proof.Machine

/-- A table is a bijection of `[0,25]`: each output index appears exactly once (R8). -/
abbrev IsBijection (t : Perm) : Prop := ∀ i j : Idx, lookup t i = lookup t j → i = j

/-- A table is an involution: `T[T[i]] = i` (R20, R81). -/
abbrev IsInvolution (t : Perm) : Prop := ∀ i : Idx, lookup t (lookup t i) = i

/-- A catalog whose wirings are bijections and whose reflectors are involutions: what R67 demands of the tables and D30
asks of a model's catalog parameter. -/
structure CatalogSound (cat : Catalog) : Prop where
  wiring_bijection : ∀ s, IsBijection (cat.wiring s)
  refl_involution : ∀ r, IsInvolution (cat.refl r)

/-- What R20 says of the live state while `VALID = 1`; the ranges of R16, R17 and R18 are in the types. -/
abbrev EngineGood (e : Engine) : Prop := IsInvolution e.plug

/-- A letter in flight stands at one of the twelve stages (R100). -/
abbrev LetterGood (f : InFlight) : Prop := f.stage.toNat < 12

/-- The invariant of the machine: the plugboard of a live engine is an involution (R20), and a letter is in flight only on
a live engine (R118) and at a stage of R100. -/
structure StateGood (s : State) : Prop where
  engine_good : ∀ e, s.engine = some e → EngineGood e
  letter_good : ∀ f, s.seq = some f → LetterGood f
  letter_has_engine : s.seq.isSome = true → s.engine.isSome = true

/-- Between commands: no letter is in flight (R19). -/
abbrev Idle (s : State) : Prop := s.seq = none

/-- The staged configuration is well shaped: what R94 validates. -/
abbrev WellShaped (s : State) : Prop := s.sRot.n = 3#3 ∧ s.sPos.n = 3#3 ∧ s.sRing.n = 3#3 ∧ s.sRef ≠ 0x00#8

end Sys2Proof.Machine
end

