-- ==== Sys2Proof/Certificates/Slice0/Obligations.lean ====
section
/-! DEFINITION. The statements for the provers, from the numbered rules of spec/. Each docstring names the rule or the
sentence it formalises. Response words are written out as numbers from R46 and R47. -/

section

open Sys2Proof
open Sys2Proof.Machine

/-! ## Encoding -/

/-- R44, R45, R100: no bit of an encoding is dropped, for every instruction at every operand its encoding admits. -/
def Obligations.DecodeOfEncodeIsInstruction : Prop :=
  ∀ i : Instr, i.wellFormed = true → decode (encode i) = .ok i

/-- R52 and R54, the other direction: a code that the decoder accepts is the encoding of the instruction it gives, so every
bit of it, reserved bits included, is accounted for. -/
def Obligations.DecodedCodeIsItsEncoding : Prop :=
  ∀ (c : Code) (i : Instr), decode c = .ok i → i.wellFormed = true ∧ encode i = c

/-- R45, R53, R54: a word is a command exactly when `(CW & mask) == match` for a row of the printed opcode map and it is
not `0x90000003`. -/
def Obligations.CommandWordsAreTheRowsOfTheMap : Prop :=
  ∀ w : Word, (∃ i, decode (.command w) = .ok i) ↔
    (w ≠ 0x90000003#32 ∧ ∃ r ∈ opcodeRows, w &&& r.mask = r.value)

/-- R57: the worked encodings. -/
def Obligations.WorkedEncodingsDecode : Prop :=
  decode (.command 0x16000123#32) = .ok (.setrot 3#3 1#4 2#4 3#4) ∧
  decode (.command 0x16000678#32) = .ok (.setrot 3#3 6#4 7#4 8#4) ∧
  decode (.command 0x14000120#32) = .ok (.setrot 2#3 1#4 2#4 0#4) ∧
  decode (.command 0x26000000#32) = .ok (.setpos 3#3 0#5 0#5 0#5) ∧
  decode (.command 0x26000074#32) = .ok (.setpos 3#3 0#5 3#5 20#5) ∧
  decode (.command 0x26006739#32) = .ok (.setpos 3#3 25#5 25#5 25#5) ∧
  decode (.command 0x36000443#32) = .ok (.setring 3#3 1#5 2#5 3#5) ∧
  decode (.command 0x40000042#32) = .ok (.setref 0x42#8) ∧
  decode (.command 0x40000000#32) = .ok (.setref 0x00#8) ∧
  decode (.command 0x50000000#32) = .ok .plugclr ∧
  decode (.command 0x60000041#32) = .ok (.plugch 0x41#8) ∧
  decode (.command 0x60000020#32) = .ok (.plugch 0x20#8) ∧
  decode (.command 0x70000000#32) = .ok .build ∧
  decode (.command 0x80000141#32) = .ok (.encc 1#2 0x41#8) ∧
  decode (.command 0x80000120#32) = .ok (.encc 1#2 0x20#8) ∧
  decode (.command 0x80000241#32) = .ok (.encc 2#2 0x41#8) ∧
  decode (.command 0x80000000#32) = .ok (.encc 0#2 0x00#8) ∧
  decode (.command 0x90000000#32) = .ok (.rdpos 0#2) ∧
  decode (.command 0x90000001#32) = .ok (.rdpos 1#2) ∧
  decode (.command 0x90000002#32) = .ok (.rdpos 2#2)

/-! ## The step -/

/-- R39, R109: between commands, a step takes the next command word from the port and is `exec` of the command it decodes
to. -/
def Obligations.StepRunsDecodedCommand : Prop :=
  ∀ (s : State) (w : Word) (rest : List HostEvent) (i : Instr),
    s.inbox = .command w :: rest → s.seq = none → decode (.command w) = .ok i →
    step s = exec i { s with inbox := rest }

/-- R100, and the model's own sequencer (log entry 3): with a letter in flight, and no reset input first, a step is `exec` of
the stage the counter stands at. -/
def Obligations.StepRunsStageInFlight : Prop :=
  ∀ (s : State) (f : InFlight) (i : Instr),
    s.seq = some f → s.inbox.head? ≠ some .reset → decode (.stage f.stage) = .ok i → step s = exec i s

/-- R131, R52, R53: a command word that matches no row ends with `IllegalCommand`, whether or not an engine exists, and
nothing else changes. -/
def Obligations.UndecodableWordIsIllegalCommand : Prop :=
  ∀ (s : State) (w : Word) (rest : List HostEvent),
    s.inbox = .command w :: rest → s.seq = none → (∀ i, decode (.command w) ≠ .ok i) →
    step s = .next { s with inbox := rest, outbox := s.outbox ++ [0x40000000#32] }

/-- R143 and R29, with U13: the reset event, also in the middle of a letter, leaves no engine, empty staging registers and
an idle sequencer, and produces no response word. -/
def Obligations.ResetEventClearsTheBlock : Prop :=
  ∀ (s : State) (rest : List HostEvent), s.inbox = .reset :: rest →
    ∃ t, step s = .next t ∧ t.engine = none ∧
      t.sRot = ⟨0#3, ⟨0#4, 0#4, 0#4⟩⟩ ∧ t.sPos = ⟨0#3, ⟨0#5, 0#5, 0#5⟩⟩ ∧ t.sRing = ⟨0#3, ⟨0#5, 0#5, 0#5⟩⟩ ∧
      t.sRef = 0x00#8 ∧ t.sPlug = [] ∧ t.seq = none ∧ t.inbox = rest ∧ t.outbox = s.outbox

/-- R29: the values after reset, and that a `BUILD` straight after reset fails; its full cause mask is R116's and R128's. -/
def Obligations.ResetValuesAreThoseOfTheSpec : Prop :=
  State.reset.valid = false ∧ State.reset.engine = none ∧
    State.reset.sRot = ⟨0#3, ⟨0#4, 0#4, 0#4⟩⟩ ∧ State.reset.sPos = ⟨0#3, ⟨0#5, 0#5, 0#5⟩⟩ ∧
    State.reset.sRing = ⟨0#3, ⟨0#5, 0#5, 0#5⟩⟩ ∧ State.reset.sRef = 0x00#8 ∧ State.reset.sPlug = [] ∧
    State.reset.seq = none ∧
    exec .build State.reset = .next { State.reset with outbox := [0x1000000F#32] }

/-- R142: "between commands it is idle and its state is held". That a step holds when the host presents nothing is the
model's own form of it (log entry 2). -/
def Obligations.IdleBlockHoldsItsState : Prop :=
  ∀ s : State, s.inbox = [] → s.seq = none → step s = .next s

/-! ## The staging commands

The clause `seq := none` says something only of a letter in flight, where `step` runs no command: there it is the model's
choice (log entry 3). -/

/-- R110: the word of `OP = 1` in format S4 of R44, and its effect. -/
def Obligations.SetrotStagesTheRotorList : Prop :=
  (∀ w : Word, w.extractLsb' 28 4 = 0x1#4 → w.extractLsb' 12 13 = 0#13 →
    decode (.command w) =
      .ok (.setrot (w.extractLsb' 25 3) (w.extractLsb' 8 4) (w.extractLsb' 4 4) (w.extractLsb' 0 4))) ∧
  ∀ (n : BitVec 3) (sl sm sr : BitVec 4) (s : State),
    exec (.setrot n sl sm sr) s =
      .next { s with sRot := ⟨n, ⟨sl, sm, sr⟩⟩, seq := none, outbox := s.outbox ++ [0x00000000#32] }

/-- R111: the word of `OP = 2` in format S5 of R44, and its effect. -/
def Obligations.SetposStagesThePositions : Prop :=
  (∀ w : Word, w.extractLsb' 28 4 = 0x2#4 → w.extractLsb' 15 10 = 0#10 →
    decode (.command w) =
      .ok (.setpos (w.extractLsb' 25 3) (w.extractLsb' 10 5) (w.extractLsb' 5 5) (w.extractLsb' 0 5))) ∧
  ∀ (n : BitVec 3) (vl vm vr : BitVec 5) (s : State),
    exec (.setpos n vl vm vr) s =
      .next { s with sPos := ⟨n, ⟨vl, vm, vr⟩⟩, seq := none, outbox := s.outbox ++ [0x00000000#32] }

/-- R112: the word of `OP = 3` in format S5 of R44, and its effect. -/
def Obligations.SetringStagesTheRingSettings : Prop :=
  (∀ w : Word, w.extractLsb' 28 4 = 0x3#4 → w.extractLsb' 15 10 = 0#10 →
    decode (.command w) =
      .ok (.setring (w.extractLsb' 25 3) (w.extractLsb' 10 5) (w.extractLsb' 5 5) (w.extractLsb' 0 5))) ∧
  ∀ (n : BitVec 3) (vl vm vr : BitVec 5) (s : State),
    exec (.setring n vl vm vr) s =
      .next { s with sRing := ⟨n, ⟨vl, vm, vr⟩⟩, seq := none, outbox := s.outbox ++ [0x00000000#32] }

/-- R113: the word of `OP = 4` in format C of R44, and its effect. -/
def Obligations.SetrefStagesTheReflectorName : Prop :=
  (∀ w : Word, w.extractLsb' 28 4 = 0x4#4 → w.extractLsb' 8 20 = 0#20 →
    decode (.command w) = .ok (.setref (w.extractLsb' 0 8))) ∧
  ∀ (ch : Byte) (s : State),
    exec (.setref ch) s = .next { s with sRef := ch, seq := none, outbox := s.outbox ++ [0x00000000#32] }

/-- R114: the word of `OP = 5` in format Z of R44, and its effect. -/
def Obligations.PlugclrEmptiesTheSpecification : Prop :=
  decode (.command 0x50000000#32) = .ok .plugclr ∧
  ∀ s : State, exec .plugclr s = .next { s with sPlug := [], seq := none, outbox := s.outbox ++ [0x00000000#32] }

/-- R115: the word of `OP = 6` in format C of R44, and its effect. -/
def Obligations.PlugchAppendsOneCharacter : Prop :=
  (∀ w : Word, w.extractLsb' 28 4 = 0x6#4 → w.extractLsb' 8 20 = 0#20 →
    decode (.command w) = .ok (.plugch (w.extractLsb' 0 8))) ∧
  ∀ (ch : Byte) (s : State),
    exec (.plugch ch) s =
      .next { s with sPlug := s.sPlug ++ [ch], seq := none, outbox := s.outbox ++ [0x00000000#32] }

/-! ## Construction -/

/-- R95, R116: `BUILD` on a well-shaped configuration writes the whole live state, positions and rings reduced modulo 26 (the
spec's decision D9), and answers `OK`; the staging registers are unchanged and an engine that existed is replaced. -/
def Obligations.BuildConstructsTheStagedEngine : Prop :=
  ∀ s : State, WellShaped s →
    exec .build s =
      .next { s with
        engine := some {
          sel := s.sRot.elems
          ring := ⟨Fin.ofNat 26 s.sRing.elems.left.toNat, Fin.ofNat 26 s.sRing.elems.middle.toNat,
            Fin.ofNat 26 s.sRing.elems.right.toNat⟩
          pos := ⟨Fin.ofNat 26 s.sPos.elems.left.toNat, Fin.ofNat 26 s.sPos.elems.middle.toNat,
            Fin.ofNat 26 s.sPos.elems.right.toNat⟩
          ref := if s.sRef = 0x42#8 then .b else if s.sRef = 0x43#8 then .c else .fallback
          plug := plugParse s.sPlug }
        seq := none
        outbox := s.outbox ++ [0x00000000#32] }

/-- R94, R128: on an ill-shaped configuration `BUILD` answers `ConfigurationError` with every cause that applies in its bit,
writes nothing, and leaves an existing engine as it was. -/
def Obligations.BuildReportsEveryCause : Prop :=
  ∀ s : State, ¬ WellShaped s →
    exec .build s =
      .next { s with
        seq := none
        outbox := s.outbox ++ [0x10000000#32 |||
          (if s.sRot.n = 3#3 then 0#32 else 1#32) ||| (if s.sPos.n = 3#3 then 0#32 else 2#32) |||
          (if s.sRing.n = 3#3 then 0#32 else 4#32) ||| (if s.sRef = 0x00#8 then 8#32 else 0#32)] }

/-- R105: a second `BUILD`, after any text has been enciphered, restores the engine to the identical starting state. -/
def Obligations.SecondBuildRestoresTheEngine : Prop :=
  ∀ (s : State) (text : List Byte), WellShaped s → s.seq = none →
    s.inbox = presentedAll ([.build] ++ encmCommands text ++ [.build]) →
    ∃ t u, Host.Core.run core 1 s = .next t ∧ Host.Core.run core (text.length + 2) s = .next u ∧
      t.engine.isSome = true ∧ u.engine = t.engine

/-! ## Read-out and encipherment -/

/-- R117: `RDPOS` answers the position of its slot, 0 left, 1 middle, 2 right, and changes nothing. -/
def Obligations.RdposReadsThePosition : Prop :=
  ∀ (s : State) (e : Engine), s.engine = some e →
    exec (.rdpos 0#2) s =
        .next { s with seq := none, outbox := s.outbox ++ [BitVec.ofNat 32 e.pos.left.val] } ∧
      exec (.rdpos 1#2) s =
        .next { s with seq := none, outbox := s.outbox ++ [BitVec.ofNat 32 e.pos.middle.val] } ∧
      exec (.rdpos 2#2) s =
        .next { s with seq := none, outbox := s.outbox ++ [BitVec.ofNat 32 e.pos.right.val] }

/-- R117, R131: `RDPOS` with `K = 3` is `IllegalCommand`, with or without an engine (the decoder refuses the word, and the
meaning says the same). -/
def Obligations.RdposOfSlotThreeIsIllegal : Prop :=
  decode (.command 0x90000003#32) = .error .noSuchSlot ∧
    ∀ s : State, exec (.rdpos 3#2) s = .next { s with seq := none, outbox := s.outbox ++ [0x40000000#32] }

/-- R130, R135: without an engine `ENCC`, whatever its operands, and `RDPOS` of a rotor end with `NotConfigured`, which comes
before `InputError`. -/
def Obligations.NoEngineIsNotConfigured : Prop :=
  ∀ s : State, s.engine = none →
    (∀ (cnt : BitVec 2) (ch : Byte),
      exec (.encc cnt ch) s = .next { s with seq := none, outbox := s.outbox ++ [0x30000000#32] }) ∧
    (∀ k : BitVec 2, k ≠ 3#2 →
      exec (.rdpos k) s = .next { s with seq := none, outbox := s.outbox ++ [0x30000000#32] })

/-- R129: `ENCC` with a count other than 1 is `InputError`; no rotor steps and nothing changes. -/
def Obligations.WrongCountIsInputError : Prop :=
  ∀ (s : State) (e : Engine) (cnt : BitVec 2) (ch : Byte), s.engine = some e → cnt ≠ 1#2 →
    exec (.encc cnt ch) s = .next { s with seq := none, outbox := s.outbox ++ [0x20000000#32] }

/-- R103: a code outside the two letter ranges of R50 comes back bit for bit and nothing changes. -/
def Obligations.NonLetterPassesThrough : Prop :=
  ∀ (s : State) (e : Engine) (ch : Byte), s.engine = some e →
    ¬ (0x41 ≤ ch.toNat ∧ ch.toNat ≤ 0x5A) → ¬ (0x61 ≤ ch.toNat ∧ ch.toNat ≤ 0x7A) →
    exec (.encc 1#2 ch) s = .next { s with seq := none, outbox := s.outbox ++ [BitVec.ofNat 32 ch.toNat] }

/-- R101, R102, R118: a letter, in either case, is stepped first and then enciphered on the stepped positions; the answer is
an upper-case letter, and of the state only the positions move. -/
def Obligations.LetterIsSteppedThenEnciphered : Prop :=
  ∀ (s : State) (e : Engine) (ch : Byte) (c0 : Idx), s.engine = some e →
    (ch.toNat = 0x41 + c0.val ∨ ch.toNat = 0x61 + c0.val) →
    exec (.encc 1#2 ch) s =
      .next { s with
        engine := some { e with pos := (engStep catalog e).pos }
        seq := none
        outbox := s.outbox ++
          [BitVec.ofNat 32 (0x41 + (engPath catalog { e with pos := (engStep catalog e).pos } c0).val)] }

/-! ## The stages of one letter

That a stage runs as an instruction on its own is the model's choice (log entry 3): the spec gives its operation and its
place in the order. -/

/-- R100, R102, stage 0: a letter in either case goes on to stage 1 with its index as the signal. -/
def Obligations.ClassifyPassesALetterOn : Prop :=
  ∀ (s : State) (e : Engine) (f : InFlight) (c0 : Idx), s.engine = some e → s.seq = some f →
    (f.ch.toNat = 0x41 + c0.val ∨ f.ch.toNat = 0x61 + c0.val) →
    exec .classify s = .next { s with seq := some ⟨1#4, f.ch, c0⟩ }

/-- R100: "A non-letter leaves after stage 0 with `out = ch`." -/
def Obligations.ClassifyAnswersANonLetter : Prop :=
  ∀ (s : State) (e : Engine) (f : InFlight), s.engine = some e → s.seq = some f →
    ¬ (0x41 ≤ f.ch.toNat ∧ f.ch.toNat ≤ 0x5A) → ¬ (0x61 ≤ f.ch.toNat ∧ f.ch.toNat ≤ 0x7A) →
    exec .classify s = .next { s with seq := none, outbox := s.outbox ++ [BitVec.ofNat 32 f.ch.toNat] }

/-- R100, R96, stage 1: the rotors step, and the letter goes on with its signal. -/
def Obligations.StepStageTurnsTheRotors : Prop :=
  ∀ (s : State) (e : Engine) (f : InFlight), s.engine = some e → s.seq = some f →
    exec .step s =
      .next { s with
        engine := some { e with pos := (engStep catalog e).pos }
        seq := some ⟨2#4, f.ch, f.sig⟩ }

/-- R100, R88, stages 2 and 10: the signal goes through the plugboard table and nothing else changes. -/
def Obligations.PlugboardStagesSwapTheSignal : Prop :=
  ∀ (s : State) (e : Engine) (f : InFlight), s.engine = some e → s.seq = some f →
    exec .plugIn s = .next { s with seq := some ⟨3#4, f.ch, e.plug[f.sig]⟩ } ∧
      exec .plugOut s = .next { s with seq := some ⟨11#4, f.ch, e.plug[f.sig]⟩ }

/-- R100, R72, stages 3 to 5: the signal goes forward through the right, the middle and the left rotor, by D0's formula, whose
`mod 26` is the arithmetic of the indices. -/
def Obligations.ForwardStagesApplyTheFormula : Prop :=
  ∀ (s : State) (e : Engine) (f : InFlight), s.engine = some e → s.seq = some f →
    exec .rFwd s =
        .next { s with seq := some ⟨4#4, f.ch,
          (catWiring e.sel.right)[f.sig + e.pos.right - e.ring.right] - e.pos.right + e.ring.right⟩ } ∧
      exec .mFwd s =
        .next { s with seq := some ⟨5#4, f.ch,
          (catWiring e.sel.middle)[f.sig + e.pos.middle - e.ring.middle] - e.pos.middle + e.ring.middle⟩ } ∧
      exec .lFwd s =
        .next { s with seq := some ⟨6#4, f.ch,
          (catWiring e.sel.left)[f.sig + e.pos.left - e.ring.left] - e.pos.left + e.ring.left⟩ }

/-- R100, R79, stage 6: the signal goes through the reflector table. -/
def Obligations.ReflectorStageReflects : Prop :=
  ∀ (s : State) (e : Engine) (f : InFlight), s.engine = some e → s.seq = some f →
    exec .refl s = .next { s with seq := some ⟨7#4, f.ch, (catRefl e.ref)[f.sig]⟩ }

/-- R100, R74, R75, stages 7 to 9: the signal goes backward through the left, the middle and the right rotor: the index `y`
that the stage hands on is the one that the forward wiring takes back to the signal, "for every i,
`inverse[forward[i]] = i`". That there is such an index uses that the printed wirings are bijections (R67, R68, log
entry 5). -/
def Obligations.BackwardStagesInvertTheWiring : Prop :=
  ∀ (s : State) (e : Engine) (f : InFlight), s.engine = some e → s.seq = some f →
    (∃ y, (catWiring e.sel.left)[y + e.pos.left - e.ring.left] = f.sig + e.pos.left - e.ring.left ∧
      exec .lBwd s = .next { s with seq := some ⟨8#4, f.ch, y⟩ }) ∧
    (∃ y, (catWiring e.sel.middle)[y + e.pos.middle - e.ring.middle] = f.sig + e.pos.middle - e.ring.middle ∧
      exec .mBwd s = .next { s with seq := some ⟨9#4, f.ch, y⟩ }) ∧
    (∃ y, (catWiring e.sel.right)[y + e.pos.right - e.ring.right] = f.sig + e.pos.right - e.ring.right ∧
      exec .rBwd s = .next { s with seq := some ⟨10#4, f.ch, y⟩ })

/-- R100, R102, stage 11: the response of the command is the upper-case letter of the signal, and the sequencer is idle. -/
def Obligations.EmitStageAnswersTheLetter : Prop :=
  ∀ (s : State) (e : Engine) (f : InFlight), s.engine = some e → s.seq = some f →
    exec .emit s = .next { s with seq := none, outbox := s.outbox ++ [BitVec.ofNat 32 (0x41 + f.sig.val)] }

/-- The model's own sequencer (log entry 3): a stage with no letter in flight has nothing to work on and stops by name; one with
a letter but no engine, a state that no run reaches, ends with `NotConfigured` as its command would (R118, R130). -/
def Obligations.StagesNeedALetterAndAnEngine : Prop :=
  ∀ i ∈ [Instr.classify, .step, .plugIn, .rFwd, .mFwd, .lFwd, .refl, .lBwd, .mBwd, .rBwd, .plugOut, .emit],
    (∀ s : State, s.seq = none → exec i s = .fault .sequencerIdle) ∧
    ∀ (s : State) (f : InFlight), s.seq = some f → s.engine = none →
      exec i s = .next { s with seq := none, outbox := s.outbox ++ [0x30000000#32] }

/-- R38, R100, R101: the twelve stages, run in order from stage 0, do in twelve steps exactly what the atomic `ENCC` of a letter
does in one; a non-letter leaves after one. -/
def Obligations.StagesRefineTheAtomicCommand : Prop :=
  ∀ (s : State) (e : Engine) (ch : Byte) (x : Idx), s.engine = some e → s.inbox.head? ≠ some .reset →
    Host.Core.run core (if isLetter ch then 12 else 1) { s with seq := some ⟨0#4, ch, x⟩ } =
      exec (.encc 1#2 ch) s

/-! ## Rotors, reflector and catalog -/

/-- R78 (a), over every catalog of bijections: the backward pass undoes the forward pass and the other way round, at every
position and ring setting. -/
def Obligations.RotorPassesAreInverse : Prop :=
  ∀ (cat : Catalog) (e : Engine) (k : Slot) (c : Idx), IsBijection (cat.wiring (slotGet e.sel k)) →
    rotBwd cat e k (rotFwd cat e k c) = c ∧ rotFwd cat e k (rotBwd cat e k c) = c

/-- R67: every printed wiring is a bijection, and every printed reflector an involution without fixed point. -/
def Obligations.PrintedCatalogIsSound : Prop :=
  CatalogSound catalog ∧ ∀ (r : RefSel) (i : Idx), lookup (catalog.refl r) i ≠ i

/-! ## Stepping -/

/-- R97, R98: the four cases of the stepping as one parallel assignment, both notch tests on the old positions; nothing but
the positions moves. -/
def Obligations.StepIsOneParallelAssignment : Prop :=
  ∀ (cat : Catalog) (e : Engine),
    let nM := e.pos.middle ∈ cat.notch e.sel.middle
    let nR := e.pos.right ∈ cat.notch e.sel.right
    engStep cat e =
      { e with
        pos := ⟨if nM then e.pos.left + 1 else e.pos.left,
          if nM ∨ nR then e.pos.middle + 1 else e.pos.middle,
          e.pos.right + 1⟩ }

/-- R108 (c) and (d): the rotor type of the left slot and all the ring settings have no effect on stepping. -/
def Obligations.LeftNotchAndRingsDoNotSteer : Prop :=
  ∀ (cat : Catalog) (e e' : Engine), e.pos = e'.pos → e.sel.middle = e'.sel.middle → e.sel.right = e'.sel.right →
    (engStep cat e).pos = (engStep cat e').pos

/-- R108 (a): the right rotor counts the letters, modulo 26; non-letters do not count. -/
def Obligations.RightRotorCountsTheLetters : Prop :=
  ∀ (cat : Catalog) (e : Engine) (text : List Byte),
    (engMsg cat e text).1.pos.right = e.pos.right + Fin.ofNat 26 (text.countP isLetter)

/-! ## Messages -/

/-- R104: `ENG.MSG(a ++ b)` is `ENG.MSG(a)` and then `ENG.MSG(b)` with the state after `a`, and the output is as long as the
input. -/
def Obligations.MessagesAreEncipheredInOrder : Prop :=
  ∀ (cat : Catalog) (e : Engine) (a b : List Byte),
    (engMsg cat e (a ++ b)).1 = (engMsg cat (engMsg cat e a).1 b).1 ∧
      (engMsg cat e (a ++ b)).2 = (engMsg cat e a).2 ++ (engMsg cat (engMsg cat e a).1 b).2 ∧
      (engMsg cat e a).2.length = a.length

/-- R103, R150: a text and the same text without its non-letters leave the engine in the same state, and their outputs agree
letter for letter. -/
def Obligations.NonLettersDoNotAdvanceTheMachine : Prop :=
  ∀ (cat : Catalog) (e : Engine) (text : List Byte),
    (engMsg cat e (text.filter isLetter)).1 = (engMsg cat e text).1 ∧
      (engMsg cat e (text.filter isLetter)).2 = (engMsg cat e text).2.filter isLetter

/-- R106, over every catalog of bijections and involutive reflectors: the signal path is an involution at every position
triple, and enciphering the ciphertext from the identical starting state gives the text back, its letters upper-cased, and
ends in the same state; over every catalog, the positions depend only on how many letters have been processed. The return in
upper case is the spec's decision D20 (log entry 4). -/
def Obligations.EnciphermentIsReciprocal : Prop :=
  ∀ (cat : Catalog) (e : Engine),
    (∀ t u : List Byte, t.countP isLetter = u.countP isLetter → (engMsg cat e t).1 = (engMsg cat e u).1) ∧
    (CatalogSound cat → EngineGood e →
      (∀ c : Idx, engPath cat e (engPath cat e c) = c) ∧
      ∀ text : List Byte, engMsg cat e (engMsg cat e text).2 = ((engMsg cat e text).1, text.map upperOf))

/-- R107, which rests on the printed reflector tables (G2, D21): no letter enciphers to itself, at any position. -/
def Obligations.NoLetterEnciphersToItself : Prop :=
  ∀ (e : Engine) (c : Idx), EngineGood e → engPath catalog e c ≠ c

/-! ## The plugboard -/

/-- R84: tokens are runs of letters, none empty; a separator ends the token before it; together they hold the letters of the
specification in order. -/
def Obligations.TokensAreTheRunsOfLetters : Prop :=
  (∀ spec, [] ∉ plugTokens spec) ∧
    (∀ spec, (plugTokens spec).flatten = spec.filterMap letterIdx) ∧
    (∀ a b sep, isLetter sep = false → plugTokens (a ++ sep :: b) = plugTokens a ++ plugTokens b) ∧
    (∀ spec, spec ≠ [] → (∀ ch ∈ spec, isLetter ch = true) → plugTokens spec = [spec.filterMap letterIdx])

/-- R85, R86: a token whose length is not 2, or a letter that two tokens share, discards the whole specification. Lower case,
stray separators and doubled letters follow the spec's decisions D17 to D19 (log entry 8). -/
def Obligations.MalformedSpecificationGivesIdentity : Prop :=
  ∀ spec : List Byte,
    ((∃ t ∈ plugTokens spec, t.length ≠ 2) ∨ ¬ (plugTokens spec).Pairwise List.Disjoint) →
    ∀ i, lookup (plugParse spec) i = i

/-- R85, R86: a specification of pairs that share no letter swaps exactly its pairs; unpaired symbols map to themselves. A
pair of two equal letters is accepted and changes nothing (the spec's decision D19). -/
def Obligations.WellFormedSpecificationSwapsItsPairs : Prop :=
  ∀ spec : List Byte,
    (∀ t ∈ plugTokens spec, t.length = 2) → (plugTokens spec).Pairwise List.Disjoint →
    (∀ a b, [a, b] ∈ plugTokens spec →
      lookup (plugParse spec) a = b ∧ lookup (plugParse spec) b = a) ∧
    (∀ c, (∀ t ∈ plugTokens spec, c ∉ t) → lookup (plugParse spec) c = c)

/-- R89: whatever the specification, the plugboard is a bijection and an involution; and the rule's testable form for the
specification `AB`. -/
def Obligations.PlugboardIsAlwaysAnInvolution : Prop :=
  (∀ spec : List Byte, IsBijection (plugParse spec) ∧ IsInvolution (plugParse spec)) ∧
    lookup (plugParse [0x41#8, 0x42#8]) 0 = 1 ∧ lookup (plugParse [0x41#8, 0x42#8]) 1 = 0 ∧
    ∀ i : Idx, i ≠ 0 → i ≠ 1 → lookup (plugParse [0x41#8, 0x42#8]) i = i

/-- R91: the bounded digest, fed character by character, determines `PLUG.PARSE`, also when `BUILD` falls inside an unfinished
token. -/
def Obligations.DigestDeterminesTheParse : Prop :=
  ∀ spec : List Byte, plugDigestResult (spec.foldl plugDigestPush plugDigestClear) = plugParse spec

/-! ## Rules of the whole machine -/

/-- The reset state meets the invariant (R29). -/
def Obligations.ResetStateIsGood : Prop := StateGood State.reset

/-- Every step from a good state, a run's or not, leads to a good state: the plugboard of a live engine stays an involution
(R20), and a letter in flight stands at a stage of R100 on a live engine. -/
def Obligations.EveryStepKeepsStatesGood : Prop :=
  ∀ s t : State, StateGood s → step s = .next t → StateGood t

/-- R152: "the only liveness fact is that every command completes": from a good state no step stops. -/
def Obligations.GoodStatesNeverStop : Prop :=
  ∀ s : State, StateGood s → ∃ t, step s = .next t

/-- R14: `VALID` is set to 0 only by reset. -/
def Obligations.OnlyResetDestroysTheEngine : Prop :=
  ∀ s t : State, s.valid = true → s.inbox.head? ≠ some .reset → step s = .next t → t.valid = true

/-- R15, R16, R17, R18, R20, R122: on a live engine only `BUILD` changes the rotor types, the ring settings, the reflector or
the plugboard, and any other instruction leaves the positions alone or moves them by one `ENG.STEP`. -/
def Obligations.ConfigurationChangesOnlyAtBuild : Prop :=
  ∀ (i : Instr) (s t : State) (e : Engine), exec i s = .next t → i ≠ .build → s.engine = some e →
    ∃ p, t.engine = some { e with pos := p } ∧ (p = e.pos ∨ p = (engStep catalog e).pos)

/-- R110 to R116: only the six staging commands write the staging registers; `BUILD` reads them and leaves them. -/
def Obligations.StagingIsWrittenOnlyByItsCommands : Prop :=
  ∀ (i : Instr) (s t : State), exec i s = .next t →
    ((∀ n a b c, i ≠ .setrot n a b c) → t.sRot = s.sRot) ∧
    ((∀ n a b c, i ≠ .setpos n a b c) → t.sPos = s.sPos) ∧
    ((∀ n a b c, i ≠ .setring n a b c) → t.sRing = s.sRing) ∧
    ((∀ ch, i ≠ .setref ch) → t.sRef = s.sRef) ∧
    ((i ≠ .plugclr ∧ ∀ ch, i ≠ .plugch ch) → t.sPlug = s.sPlug)

/-- R38 and 41_rotor.md: the stages have no command word, so between commands no letter is ever in flight. -/
def Obligations.HostCannotReachAStage : Prop :=
  ∀ s t : State, Idle s → step s = .next t → Idle t

/-- R46, R47, R109, on the model's port (log entry 2): a command, decodable or not, produces exactly one response word, whose
bits 27 to 8 are zero and whose status is one of the five. -/
def Obligations.OneCommandOneResponse : Prop :=
  ∀ (s : State) (w : Word) (rest : List HostEvent), Idle s → s.inbox = .command w :: rest →
    ∃ t rw, step s = .next t ∧ t.inbox = rest ∧ t.outbox = s.outbox ++ [rw] ∧
      rw.extractLsb' 8 20 = 0#20 ∧ (responseStatus rw).toNat ≤ 4

/-- R133: a command that ends with an error changes no architectural state, and its response word is
`{status, 20'b0, data}` with a status of R127. -/
def Obligations.ErrorsChangeNoState : Prop :=
  ∀ (s t : State) (w : Word) (rest : List HostEvent) (rw : Word), Idle s → s.inbox = .command w :: rest →
    step s = .next t → t.outbox = s.outbox ++ [rw] → responseStatus rw ≠ 0#4 →
    t = { s with inbox := rest, outbox := s.outbox ++ [rw] } ∧ rw.extractLsb' 8 20 = 0#20 ∧
      1 ≤ (responseStatus rw).toNat ∧ (responseStatus rw).toNat ≤ 4

/-! ## Pseudo-instructions -/

/-- R119: `ENCM` on a configured block answers, one response a character with status `OK`, what `ENG.MSG` gives, and leaves the
engine that `ENG.MSG` leaves. -/
def Obligations.EncmEnciphersTheMessage : Prop :=
  ∀ (s : State) (e : Engine) (text : List Byte) (rest : List HostEvent), s.engine = some e → Idle s →
    s.inbox = presentedAll (encmCommands text) ++ rest →
    Host.Core.run core text.length s =
      .next { s with
        engine := some (engMsg catalog e text).1
        inbox := rest
        outbox := s.outbox ++ (engMsg catalog e text).2.map (fun b => BitVec.ofNat 32 b.toNat) }

/-- R120, R121: `CONFIG` of a well-shaped configuration stages it and constructs its engine, every response `OK`. -/
def Obligations.ConfigConstructsTheEngine : Prop :=
  ∀ (s : State) (rotors : Slots Sel) (positions rings : Slots (BitVec 5)) (ref : Byte) (plug : List Byte)
    (rest : List HostEvent), ref ≠ 0x00#8 → Idle s →
    s.inbox = presentedAll (configCommands rotors positions rings ref plug) ++ rest →
    Host.Core.run core (plug.length + 6) s =
      .next {
        engine := some ⟨rotors, reduceElements rings, reduceElements positions, reflectorOfName ref, plugParse plug⟩
        sRot := ⟨3#3, rotors⟩
        sPos := ⟨3#3, positions⟩
        sRing := ⟨3#3, rings⟩
        sRef := ref
        sPlug := plug
        seq := none
        inbox := rest
        outbox := s.outbox ++ List.replicate (plug.length + 6) 0x00000000#32 }

end
end

