-- ==== Sys2Proof/Laws/PerInstr.lean ====
section
/-! SUPPORT. The family TableRow, one lemma per constructor: every instruction, at every operand, encodes to a code in its own
row of the opcode map (R45, R100). -/

namespace Sys2Proof.Laws.TableRow

open Sys2Proof.Machine

/-- The code of `i` lies in the row of `i`'s mnemonic. -/
def Statement (i : Instr) : Prop := inRow (mnemonicOf i) (encode i)

/-- A command lies in the row that stands at place `n` of the opcode map. -/
theorem inRow_of_get (n : Nat) (h : n < opcodeRows.length) (w : Word)
    (hw : w &&& (opcodeRows[n]'h).mask = (opcodeRows[n]'h).value) :
    inRow (opcodeRows[n]'h).mnemonic (.command w) :=
  ⟨opcodeRows[n]'h, List.getElem_mem h, rfl, hw⟩

/-- Two words with equal bits at the 32 places are equal. -/
theorem word_ext_cases {v w : Word} (h : ∀ i : Fin 32, v.getLsbD i.val = w.getLsbD i.val) : v = w :=
  BitVec.eq_of_getLsbD_eq fun i hi => h ⟨i, hi⟩

theorem setrot (n : BitVec 3) (sl sm sr : BitVec 4) : Statement (.setrot n sl sm sr) := by
  refine inRow_of_get 0 (by decide) _ (word_ext_cases fun i => ?_)
  fin_cases i <;> simp [opcodeRows, place]

theorem setpos (n : BitVec 3) (vl vm vr : BitVec 5) : Statement (.setpos n vl vm vr) := by
  refine inRow_of_get 1 (by decide) _ (word_ext_cases fun i => ?_)
  fin_cases i <;> simp [opcodeRows, place]

theorem setring (n : BitVec 3) (vl vm vr : BitVec 5) : Statement (.setring n vl vm vr) := by
  refine inRow_of_get 2 (by decide) _ (word_ext_cases fun i => ?_)
  fin_cases i <;> simp [opcodeRows, place]

theorem setref (ch : Byte) : Statement (.setref ch) := by
  refine inRow_of_get 3 (by decide) _ (word_ext_cases fun i => ?_)
  fin_cases i <;> simp [opcodeRows, place]

theorem plugclr : Statement .plugclr := inRow_of_get 4 (by decide) _ (by decide)

theorem plugch (ch : Byte) : Statement (.plugch ch) := by
  refine inRow_of_get 5 (by decide) _ (word_ext_cases fun i => ?_)
  fin_cases i <;> simp [opcodeRows, place]

theorem build : Statement .build := inRow_of_get 6 (by decide) _ (by decide)

theorem encc (cnt : BitVec 2) (ch : Byte) : Statement (.encc cnt ch) := by
  refine inRow_of_get 7 (by decide) _ (word_ext_cases fun i => ?_)
  fin_cases i <;> simp [opcodeRows, place]

theorem rdpos (k : BitVec 2) : Statement (.rdpos k) := by
  refine inRow_of_get 8 (by decide) _ (word_ext_cases fun i => ?_)
  fin_cases i <;> simp [opcodeRows, place]

theorem classify : Statement .classify := rfl
theorem step : Statement .step := rfl
theorem plugIn : Statement .plugIn := rfl
theorem rFwd : Statement .rFwd := rfl
theorem mFwd : Statement .mFwd := rfl
theorem lFwd : Statement .lFwd := rfl
theorem refl : Statement .refl := rfl
theorem lBwd : Statement .lBwd := rfl
theorem mBwd : Statement .mBwd := rfl
theorem rBwd : Statement .rBwd := rfl
theorem plugOut : Statement .plugOut := rfl
theorem emit : Statement .emit := rfl

end Sys2Proof.Laws.TableRow
end

