-- ==== Sys2Proof/Laws/Encoding.lean ====
section
/-! SUPPORT. A command word is the fields of its format put together, reserved fields included (R44): what a proof about the
decoder and the encoder needs of bits. -/

namespace Sys2Proof.Laws

open Sys2Proof.Laws.TableRow

@[simp] theorem place_zero (len lo : Nat) : place (0#len) lo = 0#32 := by simp [place]

/-- Format Z. -/
theorem word_fields_Z (w : Word) : w = place (field w 28 4) 28 ||| place (field w 0 28) 0 := by
  refine word_ext_cases fun i => ?_
  fin_cases i <;> simp [field, place]

/-- Format S4. -/
theorem word_fields_S4 (w : Word) :
    w = place (field w 28 4) 28 ||| place (field w 25 3) 25 ||| place (field w 12 13) 12 ||| place (field w 8 4) 8 |||
      place (field w 4 4) 4 ||| place (field w 0 4) 0 := by
  refine word_ext_cases fun i => ?_
  fin_cases i <;> simp [field, place]

/-- Format S5. -/
theorem word_fields_S5 (w : Word) :
    w = place (field w 28 4) 28 ||| place (field w 25 3) 25 ||| place (field w 15 10) 15 ||| place (field w 10 5) 10 |||
      place (field w 5 5) 5 ||| place (field w 0 5) 0 := by
  refine word_ext_cases fun i => ?_
  fin_cases i <;> simp [field, place]

/-- Format C. -/
theorem word_fields_C (w : Word) :
    w = place (field w 28 4) 28 ||| place (field w 8 20) 8 ||| place (field w 0 8) 0 := by
  refine word_ext_cases fun i => ?_
  fin_cases i <;> simp [field, place]

/-- Format E. -/
theorem word_fields_E (w : Word) :
    w = place (field w 28 4) 28 ||| place (field w 10 18) 10 ||| place (field w 8 2) 8 ||| place (field w 0 8) 0 := by
  refine word_ext_cases fun i => ?_
  fin_cases i <;> simp [field, place]

/-- Format K. -/
theorem word_fields_K (w : Word) :
    w = place (field w 28 4) 28 ||| place (field w 2 26) 2 ||| place (field w 0 2) 0 := by
  refine word_ext_cases fun i => ?_
  fin_cases i <;> simp [field, place]

end Sys2Proof.Laws
end

