-- ==== Sys2Proof/Laws/State.lean ====
section
/-! SUPPORT. One lemma per field per update of the state, each true by rfl. -/

namespace Sys2Proof.Machine

variable (s : State) (st : Status) (data : Byte) (f : InFlight) (n : BitVec 4) (x : Idx)

@[simp] theorem State.respond_engine : (s.respond st data).engine = s.engine := rfl
@[simp] theorem State.respond_sRot : (s.respond st data).sRot = s.sRot := rfl
@[simp] theorem State.respond_sPos : (s.respond st data).sPos = s.sPos := rfl
@[simp] theorem State.respond_sRing : (s.respond st data).sRing = s.sRing := rfl
@[simp] theorem State.respond_sRef : (s.respond st data).sRef = s.sRef := rfl
@[simp] theorem State.respond_sPlug : (s.respond st data).sPlug = s.sPlug := rfl
@[simp] theorem State.respond_seq : (s.respond st data).seq = none := rfl
@[simp] theorem State.respond_inbox : (s.respond st data).inbox = s.inbox := rfl
@[simp] theorem State.respond_outbox :
    (s.respond st data).outbox = s.outbox ++ [responseWord st data] := rfl

/-- Raising an error is answering with its status: every lemma about `respond` applies (R133). -/
@[simp] theorem State.raise_eq_respond : s.raise st data = s.respond st data := rfl

@[simp] theorem State.toStage_engine : (s.toStage f n x).engine = s.engine := rfl
@[simp] theorem State.toStage_sRot : (s.toStage f n x).sRot = s.sRot := rfl
@[simp] theorem State.toStage_sPos : (s.toStage f n x).sPos = s.sPos := rfl
@[simp] theorem State.toStage_sRing : (s.toStage f n x).sRing = s.sRing := rfl
@[simp] theorem State.toStage_sRef : (s.toStage f n x).sRef = s.sRef := rfl
@[simp] theorem State.toStage_sPlug : (s.toStage f n x).sPlug = s.sPlug := rfl
@[simp] theorem State.toStage_seq : (s.toStage f n x).seq = some ⟨n, f.ch, x⟩ := rfl
@[simp] theorem State.toStage_inbox : (s.toStage f n x).inbox = s.inbox := rfl
@[simp] theorem State.toStage_outbox : (s.toStage f n x).outbox = s.outbox := rfl

@[simp] theorem State.accept_engine : s.accept.engine = s.engine := rfl
@[simp] theorem State.accept_sRot : s.accept.sRot = s.sRot := rfl
@[simp] theorem State.accept_sPos : s.accept.sPos = s.sPos := rfl
@[simp] theorem State.accept_sRing : s.accept.sRing = s.sRing := rfl
@[simp] theorem State.accept_sRef : s.accept.sRef = s.sRef := rfl
@[simp] theorem State.accept_sPlug : s.accept.sPlug = s.sPlug := rfl
@[simp] theorem State.accept_seq : s.accept.seq = s.seq := rfl
@[simp] theorem State.accept_inbox : s.accept.inbox = s.inbox.tail := rfl
@[simp] theorem State.accept_outbox : s.accept.outbox = s.outbox := rfl

@[simp] theorem State.takeReset_engine : s.takeReset.engine = none := rfl
@[simp] theorem State.takeReset_sRot : s.takeReset.sRot = ⟨0#3, ⟨0#4, 0#4, 0#4⟩⟩ := rfl
@[simp] theorem State.takeReset_sPos : s.takeReset.sPos = ⟨0#3, ⟨0#5, 0#5, 0#5⟩⟩ := rfl
@[simp] theorem State.takeReset_sRing : s.takeReset.sRing = ⟨0#3, ⟨0#5, 0#5, 0#5⟩⟩ := rfl
@[simp] theorem State.takeReset_sRef : s.takeReset.sRef = 0x00#8 := rfl
@[simp] theorem State.takeReset_sPlug : s.takeReset.sPlug = [] := rfl
@[simp] theorem State.takeReset_seq : s.takeReset.seq = none := rfl
@[simp] theorem State.takeReset_inbox : s.takeReset.inbox = s.inbox.tail := rfl
@[simp] theorem State.takeReset_outbox : s.takeReset.outbox = s.outbox := rfl

end Sys2Proof.Machine
end

