-- ==== Sys2Proof/Laws/Ops.lean ====
section
/-! SUPPORT. What each shared operation can do, said once: the guards, the fetch, arithmetic modulo 26, tables, slots and
letters. -/

namespace Sys2Proof.Machine

/-! ### The guards -/

theorem State.withEngine_some {s : State} {e : Engine} (h : s.engine = some e) (k : Engine → Result) :
    s.withEngine k = k e := by simp [State.withEngine, h]

theorem State.withEngine_none {s : State} (h : s.engine = none) (k : Engine → Result) :
    s.withEngine k = .next (s.respond .notConfigured 0x00#8) := by simp [State.withEngine, h]

/-- A command that needs an engine and answers a next state either found none and said so, or ran on it. -/
theorem State.withEngine_next {s t : State} {k : Engine → Result} (h : s.withEngine k = .next t) :
    (s.engine = none ∧ t = s.respond .notConfigured 0x00#8) ∨ ∃ e, s.engine = some e ∧ k e = .next t := by
  cases he : s.engine with
  | none => exact .inl ⟨rfl, by simpa [State.withEngine_none he] using h.symm⟩
  | some e => exact .inr ⟨e, rfl, by rwa [State.withEngine_some he] at h⟩

theorem State.withLetter_some {s : State} {e : Engine} {f : InFlight} (he : s.engine = some e)
    (hf : s.seq = some f) (k : Engine → InFlight → Result) : s.withLetter k = k e f := by
  simp [State.withLetter, State.withEngine, he, hf]

/-- A stage that answers a next state had a letter in flight, and either found no engine or ran on it. -/
theorem State.withLetter_next {s t : State} {k : Engine → InFlight → Result} (h : s.withLetter k = .next t) :
    ∃ f, s.seq = some f ∧
      ((s.engine = none ∧ t = s.respond .notConfigured 0x00#8) ∨ ∃ e, s.engine = some e ∧ k e f = .next t) := by
  cases hf : s.seq with
  | none => simp [State.withLetter, hf] at h
  | some f => exact ⟨f, rfl, State.withEngine_next (by simpa [State.withLetter, hf] using h)⟩

theorem signalStage_some {s : State} {e : Engine} {f : InFlight} (he : s.engine = some e) (hf : s.seq = some f)
    (n : BitVec 4) (op : Engine → Idx → Idx) : signalStage n op s = .next (s.toStage f n (op e f.sig)) :=
  State.withLetter_some he hf _

/-! ### The fetch -/

theorem State.fetch_reset {s : State} {rest : List HostEvent} (h : s.inbox = .reset :: rest) : s.fetch = .reset := by
  simp [State.fetch, h]

theorem State.fetch_command {s : State} {w : Word} {rest : List HostEvent} (h : s.inbox = .command w :: rest)
    (hs : s.seq = none) : s.fetch = .run (.command w) { s with inbox := rest } := by
  simp [State.fetch, State.accept, h, hs]

theorem State.fetch_stage {s : State} {f : InFlight} (hs : s.seq = some f) (h : s.inbox.head? ≠ some .reset) :
    s.fetch = .run (.stage f.stage) s := by
  unfold State.fetch
  split <;> simp_all

theorem State.fetch_hold {s : State} (h : s.inbox = []) (hs : s.seq = none) : s.fetch = .hold := by
  simp [State.fetch, h, hs]

/-- What a fetch can be. -/
theorem State.fetch_cases (s : State) :
    (∃ rest, s.inbox = .reset :: rest ∧ s.fetch = .reset) ∨
    (∃ f, s.seq = some f ∧ s.inbox.head? ≠ some .reset ∧ s.fetch = .run (.stage f.stage) s) ∨
    (∃ w rest, s.seq = none ∧ s.inbox = .command w :: rest ∧ s.fetch = .run (.command w) s.accept) ∨
    (s.seq = none ∧ s.inbox = [] ∧ s.fetch = .hold) := by
  cases hi : s.inbox with
  | nil => cases hs : s.seq <;> simp [State.fetch, hi, hs]
  | cons ev rest => cases ev <;> cases hs : s.seq <;> simp [State.fetch, hi, hs]

/-! ### Arithmetic modulo 26 -/

/-- `mod26` of the integer value of a sum or difference of indices is that sum or difference of the indices. -/
theorem mod26_add_sub (a b c : Idx) : mod26 ((a.val : Int) + ((b.val : Int) - (c.val : Int)) + 26) = a + b - c := by
  apply Fin.ext
  simp only [mod26, Fin.sub_def, Fin.add_def]
  omega

theorem mod26_sub_shift (a b c : Idx) : mod26 ((a.val : Int) - ((b.val : Int) - (c.val : Int)) + 26) = a - b + c := by
  apply Fin.ext
  simp only [mod26, Fin.sub_def, Fin.add_def]
  omega

theorem mod26_succ (a : Idx) : mod26 ((a.val : Int) + 1) = a + 1 := by
  apply Fin.ext
  have h1 : ((1 : Idx) : Nat) = 1 := rfl
  simp only [mod26, Fin.add_def, h1]
  omega

theorem mod26_ofNat (n : Nat) : mod26 (n : Int) = Fin.ofNat 26 n := by
  apply Fin.ext
  simp only [mod26, Fin.ofNat]
  omega

/-- The formula of R72 and R74 in the arithmetic of the indices. -/
theorem rotorPass_eq (t : Perm) (p r c : Idx) :
    rotorPass t ((p.val : Int) - (r.val : Int)) c = lookup t (c + p - r) - p + r := by
  simp only [rotorPass, mod26_add_sub, mod26_sub_shift]

/-! ### Tables and slots -/

theorem mem_allIdx : ∀ i : Idx, i ∈ allIdx := by decide

@[simp] theorem lookup_identityPerm : ∀ i : Idx, lookup identityPerm i = i := by decide

theorem lookup_set (t : Perm) (a x i : Idx) : lookup (t.set a x) i = if i = a then x else lookup t i := by
  simp only [lookup, Fin.getElem_fin, Vector.getElem_set, Fin.ext_iff, eq_comm]

theorem lookup_swapPair (t : Perm) (a b i : Idx) :
    lookup (swapPair t a b) i = if i = b then a else if i = a then b else lookup t i := by
  simp only [swapPair, lookup_set]

/-- Writing `i` at the image of each index of a list: the last index of the list with a given image is read back. -/
theorem lookup_inverse_fold (p : Perm) (hp : ∀ i j, lookup p i = lookup p j → i = j) (i : Idx) :
    ∀ (l : List Idx) (q : Perm), i ∈ l ∨ lookup q (lookup p i) = i →
      lookup (l.foldl (fun q j => q.set (lookup p j) j) q) (lookup p i) = i
  | [], _, h => by simpa using h
  | j :: l, q, h => by
    refine lookup_inverse_fold p hp i l _ ?_
    rw [lookup_set]
    by_cases hij : i = j
    · simp [hij]
    · have hne : lookup p i ≠ lookup p j := fun he => hij (hp i j he)
      simpa [hne, hij] using h

/-- "for every i, `inverse[forward[i]] = i`" (R75), for a bijection. -/
theorem inverse_lookup (p : Perm) (hp : ∀ i j, lookup p i = lookup p j → i = j) (i : Idx) :
    lookup (inverse p) (lookup p i) = i :=
  lookup_inverse_fold p hp i allIdx identityPerm (.inl (mem_allIdx i))

@[simp] theorem slotGet_slotSet {α : Type} (v : Slots α) (k j : Slot) (x : α) :
    slotGet (slotSet v k x) j = if j = k then x else slotGet v j := by
  cases k <;> cases j <;> rfl

/-! ### Letters -/

theorem letterIdx_letterOf : ∀ i : Idx, letterIdx (letterOf i) = some i := by decide

theorem isLetter_letterOf : ∀ i : Idx, isLetter (letterOf i) = true := by decide

theorem letterIdx_isSome (ch : Byte) : (letterIdx ch).isSome = isLetter ch := by
  unfold letterIdx
  split <;> simp_all

theorem letterIdx_eq_none {ch : Byte} : letterIdx ch = none ↔ isLetter ch = false := by
  rw [← letterIdx_isSome]
  cases letterIdx ch <;> simp

/-- Every code is a letter of one of the two ranges, with its index, or none (R50). -/
theorem letterIdx_cases (ch : Byte) :
    (∃ i : Idx, letterIdx ch = some i ∧ (ch.toNat = 0x41 + i.val ∨ ch.toNat = 0x61 + i.val)) ∨
    (letterIdx ch = none ∧ ¬ (0x41 ≤ ch.toNat ∧ ch.toNat ≤ 0x5A) ∧ ¬ (0x61 ≤ ch.toNat ∧ ch.toNat ≤ 0x7A)) := by
  revert ch
  decide

end Sys2Proof.Machine
end

