-- ==== Sys2Proof/Laws/Engine.lean ====
section
/-! SUPPORT. The rotor passes in the arithmetic of the indices, the inverse table, and what stepping and encipherment touch. -/

namespace Sys2Proof.Machine

/-- The inverse table read forward again, for a bijection (R75). -/
theorem lookup_inverse (p : Perm) (hp : ∀ i j, lookup p i = lookup p j → i = j) (i : Idx) :
    lookup p (lookup (inverse p) i) = i := by
  obtain ⟨j, rfl⟩ := Finite.surjective_of_injective (f := lookup p) (fun a b => hp a b) i
  rw [inverse_lookup p hp]

/-- `ROT.FWD` in the arithmetic of the indices (R72). -/
theorem rotFwd_eq (cat : Catalog) (e : Engine) (k : Slot) (c : Idx) :
    rotFwd cat e k c =
      lookup (cat.wiring (slotGet e.sel k)) (c + slotGet e.pos k - slotGet e.ring k) -
        slotGet e.pos k + slotGet e.ring k :=
  rotorPass_eq _ _ _ _

/-- `ROT.BWD` in the arithmetic of the indices (R74). -/
theorem rotBwd_eq (cat : Catalog) (e : Engine) (k : Slot) (c : Idx) :
    rotBwd cat e k c =
      lookup (inverse (cat.wiring (slotGet e.sel k))) (c + slotGet e.pos k - slotGet e.ring k) -
        slotGet e.pos k + slotGet e.ring k :=
  rotorPass_eq _ _ _ _

/-- `ROT.TURNOVER` in the arithmetic of the indices (R77). -/
theorem rotTurnover_eq (e : Engine) (k : Slot) :
    rotTurnover e k = { e with pos := slotSet e.pos k (slotGet e.pos k + 1) } := by
  simp only [rotTurnover, mod26_succ]

theorem rotAtNotch_iff (cat : Catalog) (e : Engine) (k : Slot) :
    rotAtNotch cat e k = true ↔ slotGet e.pos k ∈ cat.notch (slotGet e.sel k) := by
  simp [rotAtNotch]

/-- `ENG.STEP` touches the positions alone (R96). -/
theorem engStep_eta (cat : Catalog) (e : Engine) : { e with pos := (engStep cat e).pos } = engStep cat e := by
  simp only [engStep]
  split
  · rfl
  · split <;> rfl

theorem engChar_letter (cat : Catalog) (e : Engine) {ch : Byte} {c0 : Idx} (h : letterIdx ch = some c0) :
    engChar cat e ch = (engStep cat e, letterOf (engPath cat (engStep cat e) c0)) := by
  simp [engChar, h]

theorem engChar_nonLetter (cat : Catalog) (e : Engine) {ch : Byte} (h : letterIdx ch = none) :
    engChar cat e ch = (e, ch) := by
  simp [engChar, h]

/-- The engine after a character: stepped for a letter, untouched otherwise. -/
theorem engChar_engine (cat : Catalog) (e : Engine) (ch : Byte) :
    (engChar cat e ch).1 = e ∨ (engChar cat e ch).1 = engStep cat e := by
  cases h : letterIdx ch with
  | none => exact .inl (by rw [engChar_nonLetter cat e h])
  | some c0 => exact .inr (by rw [engChar_letter cat e h])

end Sys2Proof.Machine
end

