-- ==== Sys2Proof/Laws/Exec.lean ====
section
/-! SUPPORT. Everything an instruction can do, said once: `exec_next_cases`. Proofs about all instructions cite it and unfold
no meaning. -/

namespace Sys2Proof.Machine

/-- What an instruction may have written of the state, its response apart: the registers that its own rule names. -/
structure Touched (i : Instr) (s s' : State) : Prop where
  engine : s'.engine = s.engine ∨ (i = .build ∧ s'.engine = some (engineOfStaging s)) ∨
    (i ≠ .build ∧ ∃ e, s.engine = some e ∧ s'.engine = some (engStep catalog e))
  sRot : s'.sRot = s.sRot ∨ ∃ n a b c, i = .setrot n a b c
  sPos : s'.sPos = s.sPos ∨ ∃ n a b c, i = .setpos n a b c
  sRing : s'.sRing = s.sRing ∨ ∃ n a b c, i = .setring n a b c
  sRef : s'.sRef = s.sRef ∨ ∃ ch, i = .setref ch
  sPlug : s'.sPlug = s.sPlug ∨ i = .plugclr ∨ ∃ ch, i = .plugch ch
  seq : s'.seq = s.seq
  inbox : s'.inbox = s.inbox
  outbox : s'.outbox = s.outbox

theorem Touched.same (i : Instr) (s : State) : Touched i s s :=
  ⟨.inl rfl, .inl rfl, .inl rfl, .inl rfl, .inl rfl, .inl rfl, rfl, rfl, rfl⟩

/-- The instruction ended its command with a response; with an error status nothing else was written. -/
def Answered (i : Instr) (s t : State) : Prop :=
  ∃ s' st d, t = s'.respond st d ∧ Touched i s s' ∧ (st ≠ .ok → s' = s)

/-- The instruction was a stage and handed the letter on. -/
def HandedOn (i : Instr) (s t : State) : Prop :=
  ∃ e f n x e', i ≠ .build ∧ s.engine = some e ∧ s.seq = some f ∧ n.toNat < 12 ∧ (e' = e ∨ e' = engStep catalog e) ∧
    t = { s with engine := some e' }.toStage f n x

theorem answered_same (i : Instr) (s : State) (st : Status) (d : Byte) : Answered i s (s.respond st d) :=
  ⟨s, st, d, rfl, Touched.same i s, fun _ => rfl⟩

theorem withLetter_cases {i : Instr} {s t : State} {k : Engine → InFlight → Result}
    (h : s.withLetter k = .next t)
    (hk : ∀ e f, s.engine = some e → s.seq = some f → k e f = .next t → Answered i s t ∨ HandedOn i s t) :
    Answered i s t ∨ HandedOn i s t := by
  obtain ⟨f, hf, ⟨_, rfl⟩ | ⟨e, he, ht⟩⟩ := State.withLetter_next h
  · exact .inl (answered_same i s _ _)
  · exact hk e f he hf ht

theorem withEngine_cases {i : Instr} {s t : State} {k : Engine → Result} (h : s.withEngine k = .next t)
    (hk : ∀ e, s.engine = some e → k e = .next t → Answered i s t) : Answered i s t := by
  obtain ⟨_, rfl⟩ | ⟨e, he, ht⟩ := State.withEngine_next h
  · exact answered_same i s _ _
  · exact hk e he ht

theorem signalStage_cases {i : Instr} {s t : State} {n : BitVec 4} {op : Engine → Idx → Idx} (hn : n.toNat < 12)
    (hi : i ≠ .build) (h : signalStage n op s = .next t) : Answered i s t ∨ HandedOn i s t := by
  refine withLetter_cases h fun e f he hf ht => .inr ⟨e, f, n, op e f.sig, e, hi, he, hf, hn, .inl rfl, ?_⟩
  cases ht
  simp [State.toStage, he]

/-- If an instruction answers a next state, it either ended its command with one response, having written only what its rule
names, or it was a stage and handed the letter on to a stage of R100. -/
theorem exec_next_cases {i : Instr} {s t : State} (h : exec i s = .next t) : Answered i s t ∨ HandedOn i s t := by
  cases i with
  | setrot n sl sm sr =>
    cases h
    exact .inl ⟨_, _, _, rfl, { Touched.same _ s with sRot := .inr ⟨n, sl, sm, sr, rfl⟩ }, by simp⟩
  | setpos n vl vm vr =>
    cases h
    exact .inl ⟨_, _, _, rfl, { Touched.same _ s with sPos := .inr ⟨n, vl, vm, vr, rfl⟩ }, by simp⟩
  | setring n vl vm vr =>
    cases h
    exact .inl ⟨_, _, _, rfl, { Touched.same _ s with sRing := .inr ⟨n, vl, vm, vr, rfl⟩ }, by simp⟩
  | setref ch =>
    cases h
    exact .inl ⟨_, _, _, rfl, { Touched.same _ s with sRef := .inr ⟨ch, rfl⟩ }, by simp⟩
  | plugclr =>
    cases h
    exact .inl ⟨_, _, _, rfl, { Touched.same _ s with sPlug := .inr (.inl rfl) }, by simp⟩
  | plugch ch =>
    cases h
    exact .inl ⟨_, _, _, rfl, { Touched.same _ s with sPlug := .inr (.inr ⟨ch, rfl⟩) }, by simp⟩
  | build =>
    simp only [exec, execBuild] at h
    split at h <;> cases h
    · exact .inl ⟨_, _, _, rfl, { Touched.same _ s with engine := .inr (.inl ⟨rfl, rfl⟩) }, by simp⟩
    · exact .inl (answered_same _ s _ _)
  | encc cnt ch =>
    refine .inl (withEngine_cases h fun e he ht => ?_)
    split at ht <;> cases ht
    · refine ⟨_, _, _, rfl, { Touched.same _ s with engine := ?_ }, by simp⟩
      obtain hc | hc := engChar_engine catalog e ch
      · exact .inl (by simp [hc, he])
      · exact .inr (.inr ⟨by simp, e, he, by simp [hc]⟩)
    · exact answered_same _ s _ _
  | rdpos k =>
    simp only [exec, execRdpos] at h
    split at h
    · cases h
      exact .inl (answered_same _ s _ _)
    · exact .inl (withEngine_cases h fun e _ ht => by cases ht; exact answered_same _ s _ _)
  | classify =>
    refine withLetter_cases h fun e f he hf ht => ?_
    split at ht <;> cases ht
    · exact .inl (answered_same _ s _ _)
    · exact .inr ⟨e, f, 1#4, _, e, by simp, he, hf, by decide, .inl rfl, by simp [State.toStage, he]; rfl⟩
  | step =>
    refine withLetter_cases h fun e f he hf ht => ?_
    cases ht
    exact .inr ⟨e, f, _, _, _, by simp, he, hf, by decide, .inr rfl, rfl⟩
  | plugIn => exact signalStage_cases (by decide) (by simp) h
  | rFwd => exact signalStage_cases (by decide) (by simp) h
  | mFwd => exact signalStage_cases (by decide) (by simp) h
  | lFwd => exact signalStage_cases (by decide) (by simp) h
  | refl => exact signalStage_cases (by decide) (by simp) h
  | lBwd => exact signalStage_cases (by decide) (by simp) h
  | mBwd => exact signalStage_cases (by decide) (by simp) h
  | rBwd => exact signalStage_cases (by decide) (by simp) h
  | plugOut => exact signalStage_cases (by decide) (by simp) h
  | emit =>
    refine withLetter_cases h fun e f _ _ ht => ?_
    cases ht
    exact .inl (answered_same _ s _ _)

end Sys2Proof.Machine
end

