-- ==== Sys2Proof/Tests/Slice0.lean ====
section
/-! SUPPORT. Tests, each about one step or one operation, with results from the spec's own tables and worked values
(30_encoding.md, 40_wiring_catalog.md, 95_test_vectors.md), and the witnesses: for every statement that has hypotheses, a
state and operands that meet them all together. -/

namespace Sys2Proof.Tests

open Sys2Proof.Machine

/-! ## Helpers -/

/-- The character codes of a text (R50). -/
def codes (text : String) : List Byte := text.toList.map fun c => BitVec.ofNat 8 c.toNat

/-- An engine without plugboard, with the rings at 0 (the start of most vectors of 95_test_vectors.md). -/
def engineAt (l m r : Sel) (ref : RefSel) (pl pm pr : Idx) : Engine :=
  ⟨⟨l, m, r⟩, ⟨0, 0, 0⟩, ⟨pl, pm, pr⟩, ref, identityPerm⟩

/-- The engine of D0's known-answer vector: I, II, III, reflector B (V6). -/
def engineV6 : Engine := engineAt 1#4 2#4 3#4 .b 0 0 0

/-- A block with an engine. -/
def withE (e : Engine) : State := { State.reset with engine := some e }

/-- A block with an engine and a letter in flight. -/
def inFlight (e : Engine) (n : BitVec 4) (ch : Byte) (x : Idx) : State := { withE e with seq := some ⟨n, ch, x⟩ }

/-- A block in which `CONFIG (I,II,III), (0,3,20), (1,2,3), C, "AB"` is staged. -/
def staged : State :=
  { State.reset with
    sRot := ⟨3#3, ⟨1#4, 2#4, 3#4⟩⟩
    sPos := ⟨3#3, ⟨0#5, 3#5, 20#5⟩⟩
    sRing := ⟨3#3, ⟨1#5, 2#5, 3#5⟩⟩
    sRef := 0x43#8
    sPlug := [0x41#8, 0x42#8] }

/-- The response words of a next state. -/
def answers : Result → Option (List Word)
  | .next t => some t.outbox
  | _ => none

/-- The engine of a next state. -/
def engineAfter : Result → Option Engine
  | .next t => t.engine
  | _ => none

/-- The positions of a next state. -/
def positionsAfter : Result → Option (Slots Idx)
  | .next t => t.engine.map (·.pos)
  | _ => none

/-- The stage and the signal of a next state. -/
def letterAfter : Result → Option (BitVec 4 × Idx)
  | .next t => t.seq.map fun f => (f.stage, f.sig)
  | _ => none

/-- The staging registers of a next state are those of `s`. -/
def stagingAfter : Result → Option (Staged 4 × Staged 5 × Staged 5 × Byte × List Byte)
  | .next t => some (t.sRot, t.sPos, t.sRing, t.sRef, t.sPlug)
  | _ => none

/-! ## Well-formedness: the one check, and a term it refuses -/

theorem test_wellFormed_refuses_slot_three : (Instr.rdpos 3#2).wellFormed = false := by decide
theorem test_wellFormed_admits_slot_two : (Instr.rdpos 2#2).wellFormed = true := by decide

/-! ## Decoding: each constructor's word, written out from R44 and R45 (R57, T-ENC) -/

-- 0001 011 0000000000000 0001 0010 0011
theorem test_decode_setrot : decode (.command 0b00010110000000000000000100100011#32) = .ok (.setrot 3#3 1#4 2#4 3#4) := by
  decide
-- 0010 011 0000000000 00011 01011 11001
theorem test_decode_setpos : decode (.command 0b00100110000000000000110101111001#32) = .ok (.setpos 3#3 3#5 11#5 25#5) := by
  decide
-- 0011 011 0000000000 00001 10100 01011
theorem test_decode_setring : decode (.command 0b00110110000000000000011010001011#32) = .ok (.setring 3#3 1#5 20#5 11#5) := by
  decide
-- 0100 00000000000000000000 01100010
theorem test_decode_setref : decode (.command 0b01000000000000000000000001100010#32) = .ok (.setref 0x62#8) := by decide
-- 0101 and zeros
theorem test_decode_plugclr : decode (.command 0b01010000000000000000000000000000#32) = .ok .plugclr := by decide
-- 0110 00000000000000000000 01000001
theorem test_decode_plugch : decode (.command 0b01100000000000000000000001000001#32) = .ok (.plugch 0x41#8) := by decide
-- 0111 and zeros
theorem test_decode_build : decode (.command 0b01110000000000000000000000000000#32) = .ok .build := by decide
-- 1000 000000000000000000 10 01000001
theorem test_decode_encc : decode (.command 0b10000000000000000000001001000001#32) = .ok (.encc 2#2 0x41#8) := by decide
-- 1001 00000000000000000000000000 01
theorem test_decode_rdpos : decode (.command 0b10010000000000000000000000000001#32) = .ok (.rdpos 1#2) := by decide
-- the stage numbers of R100
theorem test_decode_classify : decode (.stage 0b0000#4) = .ok .classify := by decide
theorem test_decode_step : decode (.stage 0b0001#4) = .ok .step := by decide
theorem test_decode_plugIn : decode (.stage 0b0010#4) = .ok .plugIn := by decide
theorem test_decode_rFwd : decode (.stage 0b0011#4) = .ok .rFwd := by decide
theorem test_decode_mFwd : decode (.stage 0b0100#4) = .ok .mFwd := by decide
theorem test_decode_lFwd : decode (.stage 0b0101#4) = .ok .lFwd := by decide
theorem test_decode_refl : decode (.stage 0b0110#4) = .ok .refl := by decide
theorem test_decode_lBwd : decode (.stage 0b0111#4) = .ok .lBwd := by decide
theorem test_decode_mBwd : decode (.stage 0b1000#4) = .ok .mBwd := by decide
theorem test_decode_rBwd : decode (.stage 0b1001#4) = .ok .rBwd := by decide
theorem test_decode_plugOut : decode (.stage 0b1010#4) = .ok .plugOut := by decide
theorem test_decode_emit : decode (.stage 0b1011#4) = .ok .emit := by decide

/-- The illegal words of T-ENC are rejected, each by its own name. -/
theorem test_decode_rejects_by_name :
    [0x00000000#32, 0xA0000000#32, 0xFFFFFFFF#32, 0x90000003#32, 0x70000001#32, 0x50000001#32, 0x80000541#32,
      0x16001123#32, 0x26008000#32, 0x40000142#32, 0x17000123#32].map (fun w => decode (.command w)) =
    [.error (.reservedOpcode 0#4), .error (.reservedOpcode 10#4), .error (.reservedOpcode 15#4), .error .noSuchSlot,
      .error (.reservedBits "BUILD"), .error (.reservedBits "PLUGCLR"), .error (.reservedBits "ENCC"),
      .error (.reservedBits "SETROT"), .error (.reservedBits "SETPOS"), .error (.reservedBits "SETREF"),
      .error (.reservedBits "SETROT")] := by decide
theorem test_decode_rejects_stage_twelve : decode (.stage 12#4) = .error (.noSuchStage 12#4) := by decide

/-- The encoder against T-ENC. -/
theorem test_encode_words :
    [encode (.setrot 7#3 1#4 2#4 3#4), encode (.setpos 3#3 26#5 31#5 25#5), encode (.setring 4#3 0#5 0#5 0#5),
      encode (.encc 1#2 0x20#8), encode (.rdpos 2#2)] =
    [.command 0x1E000123#32, .command 0x26006BF9#32, .command 0x38000000#32, .command 0x80000120#32,
      .command 0x90000002#32] := by decide

theorem test_decodeTableWord_command : decodeTableWord 32 0x70000000 = some .build := by decide
theorem test_decodeTableWord_stage : decodeTableWord 8 11 = some .emit := by decide

/-! ## The catalog against the wiring strings and the inverse tables of R62, R63 and R65 -/

/-- A table as a wiring string (R8). -/
def wiringString (t : Perm) : List Char := t.toList.map fun i => Char.ofNat (65 + i.val)

theorem test_wiring_strings :
    [catWiring 1#4, catWiring 2#4, catWiring 3#4, catWiring 4#4,
      catWiring 5#4, catWiring 6#4, catWiring 7#4, catWiring 8#4].map
      wiringString =
    ["EKMFLGDQVZNTOWYHXUSPAIBRCJ".toList, "AJDKSIRUXBLHWTMCQGZNPYFVOE".toList, "BDFHJLCPRTXVZNYEIWGAKMUSQO".toList, "ESOVPZJAYQUIRHXLNFTGKDCMWB".toList,
      "VZBRGITYUPSDNHLXAWMJQOFECK".toList, "JPGVOUMFYQBENHZRDKASXLICTW".toList, "NZJHGRCXMYSWBOUFAIVLPEKQDT".toList, "FKQHTLXOCBJSPDZRAMEWNIUYGV".toList] := by decide
theorem test_fallback_wirings :
    [catWiring 0#4, catWiring 9#4, catWiring 15#4] = [identityPerm, identityPerm, identityPerm] := by decide
theorem test_reflector_strings :
    [catRefl .b, catRefl .c, catRefl .fallback].map wiringString =
    ["YRUHQSLDPXNGOKMIEBFZCWVJAT".toList, "FVPJIAOYEDRZXWGCTKUQSBNMHL".toList, "ZYXWVUTSRQPONMLKJIHGFEDCBA".toList] := by
  decide
theorem test_inverse_I :
    inverse (catWiring 1#4) =
      #v[20, 22, 24, 6, 0, 3, 5, 15, 21, 25, 1, 4, 2, 10, 12, 19, 7, 23, 18, 11, 17, 8, 13, 16, 14, 9] := by
  decide
theorem test_inverse_II :
    inverse (catWiring 2#4) =
      #v[0, 9, 15, 2, 25, 22, 17, 11, 5, 1, 3, 10, 14, 19, 24, 20, 16, 6, 4, 13, 7, 23, 12, 8, 21, 18] := by
  decide
theorem test_inverse_III :
    inverse (catWiring 3#4) =
      #v[19, 0, 6, 1, 15, 2, 18, 3, 16, 4, 20, 5, 21, 13, 25, 7, 24, 8, 23, 9, 22, 11, 17, 10, 14, 12] := by
  decide
theorem test_inverse_IV :
    inverse (catWiring 4#4) =
      #v[7, 25, 22, 21, 0, 17, 19, 13, 11, 6, 20, 15, 23, 16, 2, 4, 9, 12, 1, 18, 10, 3, 24, 14, 8, 5] := by
  decide
theorem test_inverse_V :
    inverse (catWiring 5#4) =
      #v[16, 2, 24, 11, 23, 22, 4, 13, 5, 19, 25, 14, 18, 12, 21, 9, 20, 3, 10, 6, 8, 0, 17, 15, 7, 1] := by
  decide
theorem test_inverse_VI :
    inverse (catWiring 6#4) =
      #v[18, 10, 23, 16, 11, 7, 2, 13, 22, 0, 17, 21, 6, 12, 4, 1, 9, 15, 19, 24, 5, 3, 25, 20, 8, 14] := by
  decide
theorem test_inverse_VII :
    inverse (catWiring 7#4) =
      #v[16, 12, 6, 24, 21, 15, 4, 3, 17, 2, 22, 19, 8, 0, 13, 20, 23, 5, 10, 25, 14, 18, 11, 7, 9, 1] := by
  decide
theorem test_inverse_VIII :
    inverse (catWiring 8#4) =
      #v[16, 9, 8, 13, 18, 0, 24, 3, 21, 10, 1, 5, 17, 20, 7, 12, 2, 15, 11, 4, 22, 25, 19, 6, 23, 14] := by
  decide

/-! ## The staging commands -/

theorem test_setrot : stagingAfter (exec (.setrot 3#3 4#4 2#4 5#4) staged) =
    some (⟨3#3, ⟨4#4, 2#4, 5#4⟩⟩, staged.sPos, staged.sRing, 0x43#8, [0x41#8, 0x42#8]) := by decide
theorem test_setpos_leaves_live_positions : positionsAfter (exec (.setpos 3#3 9#5 9#5 9#5) (withE engineV6)) =
    some ⟨0, 0, 0⟩ := by decide
theorem test_setpos : (stagingAfter (exec (.setpos 3#3 26#5 31#5 25#5) staged)).map (·.2.1) =
    some ⟨3#3, ⟨26#5, 31#5, 25#5⟩⟩ := by decide
theorem test_setring : (stagingAfter (exec (.setring 4#3 7#5 8#5 9#5) staged)).map (·.2.2.1) =
    some ⟨4#3, ⟨7#5, 8#5, 9#5⟩⟩ := by decide
theorem test_setref : (stagingAfter (exec (.setref 0x00#8) staged)).map (·.2.2.2.1) = some 0x00#8 := by decide
theorem test_plugclr : (stagingAfter (exec .plugclr staged)).map (·.2.2.2.2) = some [] := by decide
theorem test_plugch_appends_at_the_end : (stagingAfter (exec (.plugch 0x43#8) staged)).map (·.2.2.2.2) =
    some [0x41#8, 0x42#8, 0x43#8] := by decide

/-! ## Construction (P4, P5) -/

theorem test_build : engineAfter (exec .build staged) =
    some ⟨⟨1#4, 2#4, 3#4⟩, ⟨1, 2, 3⟩, ⟨0, 3, 20⟩, .c, swapPair identityPerm 0 1⟩ := by decide
-- P5, lines 2 and 3: 26, 31, 25 become 0, 5, 25 and 30, 0, 27 become 4, 0, 1
theorem test_build_reduces_modulo_26 :
    (engineAfter (exec .build { staged with
      sPos := ⟨3#3, ⟨26#5, 31#5, 25#5⟩⟩, sRing := ⟨3#3, ⟨30#5, 0#5, 27#5⟩⟩, sRef := 0x62#8 })).map
        (fun e => (e.pos, e.ring, e.ref)) = some (⟨0, 5, 25⟩, ⟨4, 0, 1⟩, .fallback) := by decide
-- P4, lines 1, 7 and 35
theorem test_build_causes :
    [answers (exec .build State.reset),
      answers (exec .build { staged with sRot := ⟨2#3, ⟨1#4, 2#4, 0#4⟩⟩, sRing := ⟨4#3, ⟨0#5, 0#5, 0#5⟩⟩, sRef := 0x00#8 }),
      answers (exec .build { staged with sRot := ⟨7#3, ⟨1#4, 2#4, 3#4⟩⟩, sRef := 0x00#8 })] =
    [some [0x1000000F#32], some [0x1000000D#32], some [0x10000009#32]] := by decide

/-! ## The plugboard (R87, T-PLUG): specification and result -/

theorem test_plugParse_identity :
    ["", "ABC", "ABAC", "ABCD", "AB AC", "AB BA", "AB AB", "AB C", "A", "A1B", "   ", "AA", "AA AB",
      "AB CD EF GH IJ KL MN OP QR ST UV WX YZ AB"].map (fun t => plugParse (codes t)) =
    List.replicate 14 identityPerm := by decide
theorem test_plugParse_one_pair :
    ["AB", "ab", "aB", " AB ", "BA"].map (fun t => plugParse (codes t)) =
    List.replicate 5 (swapPair identityPerm 0 1) := by decide
theorem test_plugParse_separators :
    ["AB CD", "AB-CD", "AB,CD", "AB1CD", "AB@CD", "AB[CD", "AB`CD", "AB,, CD"].map (fun t => plugParse (codes t)) =
    List.replicate 8 (swapPair (swapPair identityPerm 0 1) 2 3) := by decide
-- `AA` is accepted and harmless (D19)
theorem test_plugParse_doubled_letter : plugParse (codes "AA BC") = swapPair identityPerm 1 2 := by decide
-- E1
theorem test_plugParse_E1 : (plugParse (codes "AB CD EF")).toList.take 7 = [1, 0, 3, 2, 5, 4, 6] := by decide
-- R91: `PLUGCH 'A'`, `BUILD`, `PLUGCH 'B'`, `BUILD`
theorem test_digest_of_an_open_token :
    [plugDigestResult ((codes "A").foldl plugDigestPush plugDigestClear),
      plugDigestResult ((codes "AB").foldl plugDigestPush plugDigestClear)] =
    [identityPerm, swapPair identityPerm 0 1] := by decide

/-! ## Read-out and encipherment -/

theorem test_rdpos : answers (exec (.rdpos 2#2) (withE (engineAt 1#4 2#4 3#4 .b 1 5 24))) = some [0x00000018#32] := by
  decide
theorem test_rdpos_without_engine : answers (exec (.rdpos 0#2) State.reset) = some [0x30000000#32] := by decide
-- V6, the first letter, in lower case (T-CHAR)
theorem test_encc_letter : answers (exec (.encc 1#2 0x61#8) (withE engineV6)) = some [0x00000042#32] := by decide
-- V5: both at the notch, the middle rotor moves once
theorem test_encc_double_step : positionsAfter (exec (.encc 1#2 0x41#8) (withE (engineAt 1#4 2#4 3#4 .b 0 4 21))) =
    some ⟨1, 5, 22⟩ := by decide
-- T-PATH, row 4: rings, plugboard at both ends, positions after the step (3,12,0)
theorem test_path_rings_and_plugboard :
    engPath catalog ⟨⟨4#4, 2#4, 5#4⟩, ⟨1, 20, 11⟩, ⟨3, 12, 0⟩, .b, plugParse (codes "AV BS CG")⟩ 0 = 6 := by decide
-- T-CHAR: one character of a message, non-letters in place
theorem test_msg : (engMsg catalog engineV6 (codes "A A")).2 = codes "B D" := by decide

/-- T-STEP: rotors, positions before, positions after. -/
theorem test_step_rows :
    [engineAt 1#4 2#4 3#4 .b 0 3 20, engineAt 1#4 2#4 3#4 .b 0 0 21, engineAt 1#4 2#4 3#4 .b 0 4 0,
      engineAt 1#4 2#4 3#4 .b 25 4 25, engineAt 1#4 2#4 3#4 .b 16 0 0, engineAt 1#4 2#4 3#4 .b 25 25 25,
      engineAt 3#4 2#4 1#4 .b 0 0 16, engineAt 4#4 5#4 4#4 .b 0 24 9, engineAt 4#4 5#4 4#4 .b 0 25 9,
      engineAt 1#4 6#4 3#4 .b 0 12 5, engineAt 1#4 6#4 3#4 .b 0 25 5, engineAt 1#4 2#4 8#4 .b 0 0 12,
      engineAt 1#4 2#4 8#4 .b 0 0 25, engineAt 6#4 7#4 8#4 .b 12 12 12, engineAt 0#4 9#4 15#4 .b 0 0 0,
      engineAt 0#4 0#4 0#4 .b 5 1 0].map (fun e => (engStep catalog e).pos) =
    [⟨0, 3, 21⟩, ⟨0, 1, 22⟩, ⟨1, 5, 1⟩, ⟨0, 5, 0⟩, ⟨16, 0, 1⟩, ⟨25, 25, 0⟩, ⟨0, 1, 17⟩, ⟨0, 25, 10⟩, ⟨1, 0, 10⟩,
      ⟨1, 13, 6⟩, ⟨1, 0, 6⟩, ⟨0, 1, 13⟩, ⟨0, 1, 0⟩, ⟨13, 13, 13⟩, ⟨1, 1, 1⟩, ⟨5, 2, 1⟩] := by decide

/-- A rotor of type `t` in the left slot, at a position and a ring setting. -/
def rotorAt (t : Sel) (p r : Idx) : Engine := ⟨⟨t, 0#4, 0#4⟩, ⟨r, 0, 0⟩, ⟨p, 0, 0⟩, .b, identityPerm⟩

/-- T-ROT: both passes at the corner shifts. -/
theorem test_rotor_rows :
    [rotFwd catalog (rotorAt 1#4 1 0) .left 0, rotBwd catalog (rotorAt 1#4 1 0) .left 0,
      rotFwd catalog (rotorAt 1#4 0 25) .left 0, rotFwd catalog (rotorAt 1#4 25 0) .left 25,
      rotBwd catalog (rotorAt 1#4 0 25) .left 25, rotFwd catalog (rotorAt 2#4 4 3) .left 17,
      rotBwd catalog (rotorAt 3#4 21 0) .left 4, rotFwd catalog (rotorAt 4#4 7 19) .left 2,
      rotFwd catalog (rotorAt 7#4 24 1) .left 25, rotBwd catalog (rotorAt 8#4 12 7) .left 19,
      rotFwd catalog (rotorAt 12#4 9 20) .left 14] =
    [9, 21, 9, 3, 19, 24, 17, 25, 13, 18, 14] := by decide

/-! ## The stages: V6, letter 1 (`0 0 2 3 5 18 18 4 1 1`), and P2 -/

theorem test_classify : letterAfter (exec .classify (inFlight engineV6 0#4 0x7A#8 0)) = some (1#4, 25) := by decide
theorem test_classify_non_letter : answers (exec .classify (inFlight engineV6 0#4 0x5B#8 0)) = some [0x0000005B#32] := by
  decide
theorem test_step : positionsAfter (exec .step (inFlight (engineAt 1#4 2#4 3#4 .b 0 3 21) 1#4 0x41#8 0)) =
    some ⟨0, 4, 22⟩ := by decide
-- T-PATH, row 4: A goes in as V
theorem test_plugIn : letterAfter (exec .plugIn
    (inFlight { engineV6 with plug := plugParse (codes "AV BS CG") } 2#4 0x41#8 0)) = some (3#4, 21) := by decide
theorem test_rFwd : letterAfter (exec .rFwd (inFlight (engineAt 1#4 2#4 3#4 .b 0 0 1) 3#4 0x41#8 0)) = some (4#4, 2) := by
  decide
theorem test_mFwd : letterAfter (exec .mFwd (inFlight (engineAt 1#4 2#4 3#4 .b 0 0 1) 4#4 0x41#8 2)) = some (5#4, 3) := by
  decide
theorem test_lFwd : letterAfter (exec .lFwd (inFlight (engineAt 1#4 2#4 3#4 .b 0 0 1) 5#4 0x41#8 3)) = some (6#4, 5) := by
  decide
theorem test_refl : letterAfter (exec .refl (inFlight (engineAt 1#4 2#4 3#4 .b 0 0 1) 6#4 0x41#8 5)) = some (7#4, 18) := by
  decide
theorem test_lBwd : letterAfter (exec .lBwd (inFlight (engineAt 1#4 2#4 3#4 .b 0 0 1) 7#4 0x41#8 18)) = some (8#4, 18) := by
  decide
theorem test_mBwd : letterAfter (exec .mBwd (inFlight (engineAt 1#4 2#4 3#4 .b 0 0 1) 8#4 0x41#8 18)) = some (9#4, 4) := by
  decide
theorem test_rBwd : letterAfter (exec .rBwd (inFlight (engineAt 1#4 2#4 3#4 .b 0 0 1) 9#4 0x41#8 4)) = some (10#4, 1) := by
  decide
-- T-PATH, row 4: C comes out as G
theorem test_plugOut : letterAfter (exec .plugOut
    (inFlight { engineV6 with plug := plugParse (codes "AV BS CG") } 10#4 0x41#8 2)) = some (11#4, 6) := by decide
theorem test_emit : answers (exec .emit (inFlight engineV6 11#4 0x41#8 1)) = some [0x00000042#32] := by decide

/-! ## The step -/

theorem test_step_takes_a_command : answers (step (State.reset.withFetchWord 32 0x80000541)) = some [0x40000000#32] := by
  decide
theorem test_step_takes_a_stage : letterAfter (step ((withE engineV6).withFetchWord 8 6)) = some (7#4, 24) := by decide
theorem test_step_reset_in_a_letter :
    (match step { inFlight engineV6 5#4 0x41#8 3 with inbox := [.reset] } with
      | .next t => decide (t = State.reset)
      | _ => false) = true := by decide

/-! ## The assembler (R56, R119 to R121) -/

theorem test_assemble_rotors : assembleLine "SETROT 3, ?0, ?9, VIII   ; three rotors".toList =
    some [.setrot 3#3 0#4 9#4 8#4] := by decide
theorem test_assemble_encc : assemble ["ENCC ';', 2".toList, "ENCC 0x00, 0".toList, "ENCC 'A'".toList] =
    some [.encc 2#2 0x3B#8, .encc 0#2 0x00#8, .encc 1#2 0x41#8] := by decide
theorem test_assemble_plugstr : assembleLine "PLUGSTR \"AB CD\"".toList =
    some [.plugclr, .plugch 0x41#8, .plugch 0x42#8, .plugch 0x20#8, .plugch 0x43#8, .plugch 0x44#8] := by decide
-- R121's example
theorem test_assemble_config :
    (assembleLine "CONFIG (I,II,III), (0,0,0), (0,0,0), B, \"\"".toList).map presentedAll =
    some [.command 0x16000123#32, .command 0x26000000#32, .command 0x36000000#32, .command 0x40000042#32,
      .command 0x50000000#32, .command 0x70000000#32] := by decide
theorem test_assemble_rejects : ["SETROT 8, I, II, III", "SETPOS 3, 0, 0, 32", "SETREF b", "RDPOS K", "BUILD 1"].map
    (fun l => assembleLine l.toList) = [none, none, none, none, none] := by decide

/-! ## Witnesses -/

/-- A good state that is not reset's: a letter in flight at the last stage, on an engine with a plugboard. -/
def goodState : State := inFlight { engineV6 with plug := swapPair identityPerm 0 1 } 11#4 0x41#8 25

theorem goodState_good : StateGood goodState := by
  refine ⟨fun e he => ?_, fun f hf => ?_, fun _ => rfl⟩
  · cases he
    decide
  · cases hf
    decide

/-- A block with an engine, between commands, to which `w` is presented. -/
def presentedTo (e : Engine) (w : Word) : State := { withE e with inbox := [.command w] }

theorem witness_DecodeOfEncodeIsInstruction : (Instr.rdpos 2#2).wellFormed = true := by decide
theorem witness_DecodedCodeIsItsEncoding : decode (.command 0x90000002#32) = .ok (.rdpos 2#2) := by decide
theorem witness_StepRunsDecodedCommand :
    (presentedTo engineV6 0x90000002#32).inbox = .command 0x90000002#32 :: [] ∧
      (presentedTo engineV6 0x90000002#32).seq = none ∧ decode (.command 0x90000002#32) = .ok (.rdpos 2#2) := by decide
theorem witness_StepRunsStageInFlight :
    goodState.seq = some ⟨11#4, 0x41#8, 25⟩ ∧ goodState.inbox.head? ≠ some .reset ∧ decode (.stage 11#4) = .ok .emit := by
  decide
theorem undecodable_word (i : Instr) : decode (.command 0x90000003#32) ≠ .ok i := by
  rw [show decode (.command 0x90000003#32) = .error .noSuchSlot by decide]
  simp
theorem witness_UndecodableWordIsIllegalCommand :
    (presentedTo engineV6 0x90000003#32).inbox = .command 0x90000003#32 :: [] ∧
      (presentedTo engineV6 0x90000003#32).seq = none ∧ ∀ i, decode (.command 0x90000003#32) ≠ .ok i :=
  ⟨rfl, rfl, undecodable_word⟩
theorem witness_ResetEventClearsTheBlock :
    ({ goodState with inbox := [.reset] } : State).inbox = .reset :: [] := rfl
theorem witness_IdleBlockHoldsItsState : (withE engineV6).inbox = [] ∧ (withE engineV6).seq = none := by decide
theorem witness_SetrotStagesTheRotorList :
    (0x16000123#32).extractLsb' 28 4 = 0x1#4 ∧ (0x16000123#32).extractLsb' 12 13 = 0#13 := by decide
theorem witness_SetposStagesThePositions :
    (0x26006739#32).extractLsb' 28 4 = 0x2#4 ∧ (0x26006739#32).extractLsb' 15 10 = 0#10 := by decide
theorem witness_SetringStagesTheRingSettings :
    (0x36000443#32).extractLsb' 28 4 = 0x3#4 ∧ (0x36000443#32).extractLsb' 15 10 = 0#10 := by decide
theorem witness_SetrefStagesTheReflectorName :
    (0x400000FF#32).extractLsb' 28 4 = 0x4#4 ∧ (0x400000FF#32).extractLsb' 8 20 = 0#20 := by decide
theorem witness_PlugchAppendsOneCharacter :
    (0x60000041#32).extractLsb' 28 4 = 0x6#4 ∧ (0x60000041#32).extractLsb' 8 20 = 0#20 := by decide
theorem witness_BuildConstructsTheStagedEngine : WellShaped staged := by decide
/-- One cause at a time. -/
theorem witness_BuildReportsEveryCause :
    ¬ WellShaped { staged with sRot := ⟨2#3, ⟨1#4, 2#4, 3#4⟩⟩ } ∧ ¬ WellShaped { staged with sPos := ⟨4#3, ⟨0#5, 3#5, 20#5⟩⟩ } ∧
      ¬ WellShaped { staged with sRing := ⟨7#3, ⟨1#5, 2#5, 3#5⟩⟩ } ∧ ¬ WellShaped { staged with sRef := 0x00#8 } := by decide
theorem witness_SecondBuildRestoresTheEngine :
    let s := { staged with inbox := presentedAll ([.build] ++ encmCommands [0x41#8] ++ [.build]) }
    WellShaped s ∧ s.seq = none ∧ s.inbox = presentedAll ([.build] ++ encmCommands [0x41#8] ++ [.build]) := by decide
theorem witness_RdposReadsThePosition : (withE engineV6).engine = some engineV6 := rfl
theorem witness_NoEngineIsNotConfigured : State.reset.engine = none ∧ (0#2 : BitVec 2) ≠ 3#2 ∧ (2#2 : BitVec 2) ≠ 3#2 := by
  decide
theorem witness_WrongCountIsInputError :
    (withE engineV6).engine = some engineV6 ∧ (0#2 : BitVec 2) ≠ 1#2 ∧ (2#2 : BitVec 2) ≠ 1#2 ∧ (3#2 : BitVec 2) ≠ 1#2 := by
  decide
/-- The four codes next to the letter ranges. -/
theorem witness_NonLetterPassesThrough :
    (withE engineV6).engine = some engineV6 ∧ ∀ ch ∈ [0x40#8, 0x5B#8, 0x60#8, 0x7B#8],
      ¬ (0x41 ≤ ch.toNat ∧ ch.toNat ≤ 0x5A) ∧ ¬ (0x61 ≤ ch.toNat ∧ ch.toNat ≤ 0x7A) := by decide
/-- The first and the last letter in both cases. -/
theorem witness_LetterIsSteppedThenEnciphered :
    (withE engineV6).engine = some engineV6 ∧ (0x41#8 : Byte).toNat = 0x41 + (0 : Idx).val ∧
      (0x5A#8 : Byte).toNat = 0x41 + (25 : Idx).val ∧ (0x61#8 : Byte).toNat = 0x61 + (0 : Idx).val ∧
      (0x7A#8 : Byte).toNat = 0x61 + (25 : Idx).val := by decide
theorem witness_ClassifyPassesALetterOn :
    (inFlight engineV6 0#4 0x7A#8 0).engine = some engineV6 ∧
      (inFlight engineV6 0#4 0x7A#8 0).seq = some ⟨0#4, 0x7A#8, 0⟩ ∧ (0x7A#8 : Byte).toNat = 0x61 + (25 : Idx).val := by
  decide
theorem witness_ClassifyAnswersANonLetter :
    (inFlight engineV6 0#4 0x20#8 0).engine = some engineV6 ∧
      (inFlight engineV6 0#4 0x20#8 0).seq = some ⟨0#4, 0x20#8, 0⟩ ∧
      ¬ (0x41 ≤ (0x20#8 : Byte).toNat ∧ (0x20#8 : Byte).toNat ≤ 0x5A) ∧
      ¬ (0x61 ≤ (0x20#8 : Byte).toNat ∧ (0x20#8 : Byte).toNat ≤ 0x7A) := by decide
theorem witness_StepStageTurnsTheRotors :
    (inFlight engineV6 1#4 0x41#8 0).engine = some engineV6 ∧
      (inFlight engineV6 1#4 0x41#8 0).seq = some ⟨1#4, 0x41#8, 0⟩ := by decide
theorem witness_PlugboardStagesSwapTheSignal :
    (inFlight engineV6 2#4 0x41#8 0).engine = some engineV6 ∧
      (inFlight engineV6 2#4 0x41#8 0).seq = some ⟨2#4, 0x41#8, 0⟩ := by decide
theorem witness_ForwardStagesApplyTheFormula :
    (inFlight engineV6 3#4 0x41#8 25).engine = some engineV6 ∧
      (inFlight engineV6 3#4 0x41#8 25).seq = some ⟨3#4, 0x41#8, 25⟩ := by decide
theorem witness_ReflectorStageReflects :
    (inFlight engineV6 6#4 0x41#8 5).engine = some engineV6 ∧
      (inFlight engineV6 6#4 0x41#8 5).seq = some ⟨6#4, 0x41#8, 5⟩ := by decide
theorem witness_BackwardStagesInvertTheWiring :
    (inFlight engineV6 7#4 0x41#8 18).engine = some engineV6 ∧
      (inFlight engineV6 7#4 0x41#8 18).seq = some ⟨7#4, 0x41#8, 18⟩ := by decide
theorem witness_EmitStageAnswersTheLetter :
    (inFlight engineV6 11#4 0x41#8 1).engine = some engineV6 ∧
      (inFlight engineV6 11#4 0x41#8 1).seq = some ⟨11#4, 0x41#8, 1⟩ := by decide
theorem witness_StagesNeedALetterAndAnEngine :
    Instr.emit ∈ [Instr.classify, .step, .plugIn, .rFwd, .mFwd, .lFwd, .refl, .lBwd, .mBwd, .rBwd, .plugOut, .emit] ∧
      State.reset.seq = none ∧ (State.reset.withFetchWord 4 11).seq = some ⟨11#4, 0x00#8, 0⟩ ∧
      (State.reset.withFetchWord 4 11).engine = none := by decide
theorem witness_StagesRefineTheAtomicCommand :
    (withE engineV6).engine = some engineV6 ∧ (withE engineV6).inbox.head? ≠ some .reset := by decide
theorem witness_RotorPassesAreInverse : IsBijection (catalog.wiring (slotGet engineV6.sel .right)) := by decide
theorem witness_LeftNotchAndRingsDoNotSteer :
    let e := engineAt 1#4 2#4 3#4 .b 16 4 21
    let e' : Engine := ⟨⟨6#4, 2#4, 3#4⟩, ⟨1, 20, 11⟩, ⟨16, 4, 21⟩, .c, identityPerm⟩
    e.pos = e'.pos ∧ e.sel.middle = e'.sel.middle ∧ e.sel.right = e'.sel.right := by decide
/-- A catalog of identity tables. -/
def identityCatalog : Catalog := ⟨fun _ => identityPerm, fun _ => [0], fun _ => identityPerm⟩
theorem witness_EnciphermentIsReciprocal :
    (codes "A, b").countP isLetter = (codes "zQ").countP isLetter ∧ CatalogSound identityCatalog ∧ EngineGood engineV6 :=
  ⟨by decide, ⟨fun _ => show IsBijection identityPerm by decide, fun _ => show IsInvolution identityPerm by decide⟩, by decide⟩
theorem witness_NoLetterEnciphersToItself : EngineGood engineV6 := by decide
theorem witness_TokensAreTheRunsOfLetters :
    isLetter 0x40#8 = false ∧ codes "aB" ≠ [] ∧ ∀ ch ∈ codes "aB", isLetter ch = true := by decide
/-- Each of the two defects alone: a token of length 1, and a letter in two pairs. -/
theorem witness_MalformedSpecificationGivesIdentity :
    (∃ t ∈ plugTokens (codes "AB C"), t.length ≠ 2) ∧ ¬ (plugTokens (codes "AB AC")).Pairwise List.Disjoint := by
  refine ⟨⟨[2], by decide, by decide⟩, ?_⟩
  rw [show plugTokens (codes "AB AC") = [[0, 1], [0, 2]] by decide]
  simp [List.Disjoint]
theorem witness_WellFormedSpecificationSwapsItsPairs :
    (∀ t ∈ plugTokens (codes "AB CC"), t.length = 2) ∧ (plugTokens (codes "AB CC")).Pairwise List.Disjoint ∧
      [0, 1] ∈ plugTokens (codes "AB CC") ∧ ∀ t ∈ plugTokens (codes "AB CC"), (25 : Idx) ∉ t := by
  rw [show plugTokens (codes "AB CC") = [[0, 1], [2, 2]] by decide]
  refine ⟨by decide, ?_, by decide, by decide⟩
  simp [List.Disjoint]
theorem witness_EveryStepKeepsStatesGood :
    StateGood goodState ∧ ∃ t, step goodState = .next t := ⟨goodState_good, _, rfl⟩
theorem witness_GoodStatesNeverStop : StateGood goodState := goodState_good
theorem witness_OnlyResetDestroysTheEngine :
    (presentedTo engineV6 0x70000000#32).valid = true ∧ (presentedTo engineV6 0x70000000#32).inbox.head? ≠ some .reset ∧
      ∃ t, step (presentedTo engineV6 0x70000000#32) = .next t := ⟨rfl, by decide, _, rfl⟩
theorem witness_ConfigurationChangesOnlyAtBuild :
    (∃ t, exec (.encc 1#2 0x41#8) (withE engineV6) = .next t) ∧ Instr.encc 1#2 0x41#8 ≠ .build ∧
      (withE engineV6).engine = some engineV6 := ⟨⟨_, rfl⟩, by decide, rfl⟩
/-- `BUILD` is none of the six staging commands. -/
theorem witness_StagingIsWrittenOnlyByItsCommands :
    (∃ t, exec .build staged = .next t) ∧ (∀ n a b c, Instr.build ≠ .setrot n a b c) ∧
      (∀ n a b c, Instr.build ≠ .setpos n a b c) ∧ (∀ n a b c, Instr.build ≠ .setring n a b c) ∧
      (∀ ch, Instr.build ≠ .setref ch) ∧ Instr.build ≠ .plugclr ∧ ∀ ch, Instr.build ≠ .plugch ch :=
  ⟨⟨_, rfl⟩, by simp, by simp, by simp, by simp, by simp, by simp⟩
theorem witness_HostCannotReachAStage :
    Idle (presentedTo engineV6 0x80000141#32) ∧ ∃ t, step (presentedTo engineV6 0x80000141#32) = .next t := ⟨rfl, _, rfl⟩
theorem witness_OneCommandOneResponse :
    Idle (presentedTo engineV6 0x80000141#32) ∧
      (presentedTo engineV6 0x80000141#32).inbox = .command 0x80000141#32 :: [] := ⟨rfl, rfl⟩
theorem witness_ErrorsChangeNoState :
    Idle (presentedTo engineV6 0x80000241#32) ∧
      (presentedTo engineV6 0x80000241#32).inbox = .command 0x80000241#32 :: [] ∧
      (∃ t, step (presentedTo engineV6 0x80000241#32) = .next t ∧
        t.outbox = (presentedTo engineV6 0x80000241#32).outbox ++ [0x20000000#32]) ∧
      responseStatus 0x20000000#32 ≠ 0#4 := ⟨rfl, rfl, ⟨_, rfl, by decide⟩, by decide⟩
theorem witness_EncmEnciphersTheMessage :
    let s := { withE engineV6 with inbox := presentedAll (encmCommands [0x41#8]) ++ [.reset] }
    s.engine = some engineV6 ∧ Idle s ∧ s.inbox = presentedAll (encmCommands [0x41#8]) ++ [.reset] := ⟨rfl, rfl, rfl⟩
theorem witness_ConfigConstructsTheEngine :
    let is := configCommands ⟨1#4, 2#4, 3#4⟩ ⟨0#5, 0#5, 0#5⟩ ⟨0#5, 0#5, 0#5⟩ 0x42#8 [0x41#8, 0x42#8]
    let s := { State.reset with inbox := presentedAll is ++ [] }
    (0x42#8 : Byte) ≠ 0x00#8 ∧ Idle s ∧ s.inbox = presentedAll is ++ [] := ⟨by decide, rfl, rfl⟩

end Sys2Proof.Tests
end

/-! ## The state between steps: what one step can do, the invariant, and the reset values -/

namespace Sys2Proof.Machine

/-! ### What one step can do -/

/-- How the block came from `s` to `t` in one step: the three things a fetch can be (R39, R142, R143), with what the
decoder says of the code that is run (R54). -/
inductive StepCase (s t : State) : Prop where
  | reset (rest : List HostEvent) (hi : s.inbox = .reset :: rest) (ht : t = s.takeReset)
  | hold (hs : s.seq = none) (hi : s.inbox = []) (ht : t = s)
  | stage (f : InFlight) (i : Instr) (hs : s.seq = some f) (hi : s.inbox.head? ≠ some .reset)
      (hd : decode (.stage f.stage) = .ok i) (ht : exec i s = .next t)
  | command (w : Word) (rest : List HostEvent) (i : Instr) (hs : s.seq = none) (hi : s.inbox = .command w :: rest)
      (hd : decode (.command w) = .ok i) (ht : exec i s.accept = .next t)
  | undecodable (w : Word) (rest : List HostEvent) (err : DecodeError) (hs : s.seq = none)
      (hi : s.inbox = .command w :: rest) (hd : decode (.command w) = .error err)
      (ht : t = s.accept.respond .illegalCommand 0x00#8)

/-- Every step that answers a next state is one of the cases of `StepCase`. -/
theorem step_next_cases {s t : State} (h : step s = .next t) : StepCase s t := by
  unfold step at h
  obtain ⟨rest, hi, hf⟩ | ⟨f, hs, hi, hf⟩ | ⟨w, rest, hs, hi, hf⟩ | ⟨hs, hi, hf⟩ := s.fetch_cases <;>
    simp only [hf] at h
  · cases h
    exact .reset rest hi rfl
  · cases hd : decode (.stage f.stage) with
    | ok i => exact .stage f i hs hi hd (by simpa only [hd] using h)
    | error err => simp [hd, reject] at h
  · cases hd : decode (.command w) with
    | ok i => exact .command w rest i hs hi hd (by simpa only [hd] using h)
    | error err => exact .undecodable w rest err hs hi hd (by simpa [hd, reject] using h.symm)
  · cases h
    exact .hold hs hi rfl

/-! ### The plugboard that `PLUG.PARSE` builds -/

/-- A new pair keeps an involution an involution, when neither of its letters is connected yet (R89). -/
theorem isInvolution_swapPair {p : Perm} {a b : Idx} (hp : IsInvolution p) (ha : lookup p a = a)
    (hb : lookup p b = b) : IsInvolution (swapPair p a b) := by
  intro i
  by_cases hib : i = b
  · simp [lookup_swapPair, hib]
  by_cases hia : i = a
  · simp [lookup_swapPair, hia]
  have hne_b : lookup p i ≠ b := fun h => hib (by rw [← hp i, h, hb])
  have hne_a : lookup p i ≠ a := fun h => hia (by rw [← hp i, h, ha])
  simp [lookup_swapPair, hib, hia, hne_b, hne_a, hp i]

/-- A letter that no pair has used is not connected, and a new pair keeps it so. -/
theorem lookup_swapPair_unused {p : Perm} {used : List Idx} (hfix : ∀ c, c ∉ used → lookup p c = c) (a b : Idx) :
    ∀ c, c ∉ a :: b :: used → lookup (swapPair p a b) c = c := by
  intro c hc
  obtain ⟨hca, hcb, hcu⟩ : c ≠ a ∧ c ≠ b ∧ c ∉ used := by simpa using hc
  simp [lookup_swapPair, hca, hcb, hfix c hcu]

/-- The building of the table keeps it an involution, since it pairs only letters not used before (R87, R89). -/
theorem isInvolution_of_plugPairs {p q : Perm} {used : List Idx} {tokens : List (List Idx)} (hp : IsInvolution p)
    (hfix : ∀ c, c ∉ used → lookup p c = c) (h : plugPairs p used tokens = some q) : IsInvolution q := by
  induction p, used, tokens using plugPairs.induct with
  | case1 p used =>
    cases h
    exact hp
  | case2 p used a b rest hused => simp [plugPairs, hused] at h
  | case3 p used a b rest hused ih =>
    obtain ⟨ha, hb⟩ := not_or.mp hused
    rw [plugPairs, if_neg hused] at h
    exact ih (isInvolution_swapPair hp (hfix a ha) (hfix b hb)) (lookup_swapPair_unused hfix a b) h
  | case4 p used token rest hnotPair => simp [plugPairs] at h

theorem isInvolution_identityPerm : IsInvolution identityPerm := fun i => by simp

/-- Whatever is staged, the plugboard is an involution (R89). -/
theorem isInvolution_plugParse (spec : List Byte) : IsInvolution (plugParse spec) := by
  unfold plugParse
  cases h : plugPairs identityPerm [] (plugTokens spec) with
  | none => exact isInvolution_identityPerm
  | some q => exact isInvolution_of_plugPairs isInvolution_identityPerm (fun c _ => lookup_identityPerm c) h

/-! ### The invariant of the machine -/

@[simp] theorem engStep_plug (cat : Catalog) (e : Engine) : (engStep cat e).plug = e.plug :=
  (congrArg Engine.plug (engStep_eta cat e)).symm

theorem EngineGood.engStep {e : Engine} (h : EngineGood e) (cat : Catalog) : EngineGood (engStep cat e) := by
  simpa [EngineGood] using h

theorem engineGood_engineOfStaging (s : State) : EngineGood (engineOfStaging s) := isInvolution_plugParse s.sPlug

theorem stateGood_takeReset (s : State) : StateGood s.takeReset := by constructor <;> simp

theorem StateGood.accept {s : State} (h : StateGood s) : StateGood s.accept :=
  ⟨h.engine_good, h.letter_good, h.letter_has_engine⟩

/-- A response leaves the sequencer idle, so only the engine counts. -/
theorem stateGood_respond {s : State} (h : ∀ e, s.engine = some e → EngineGood e) (st : Status) (data : Byte) :
    StateGood (s.respond st data) := by
  constructor
  · simpa using h
  · simp
  · simp

/-- A letter handed on to a stage of R100 on a good engine. -/
theorem stateGood_toStage {s : State} {e : Engine} {n : BitVec 4} (he : EngineGood e) (hn : n.toNat < 12)
    (f : InFlight) (x : Idx) : StateGood ({ s with engine := some e }.toStage f n x) := by
  constructor
  · simpa using he
  · simpa [LetterGood] using hn
  · simp

/-- What an instruction may have written of the engine is good when the engine before was. -/
theorem Touched.engine_good {i : Instr} {s s' : State} (h : Touched i s s')
    (hs : ∀ e, s.engine = some e → EngineGood e) : ∀ e, s'.engine = some e → EngineGood e := by
  intro e' he'
  obtain hsame | ⟨_, hbuilt⟩ | ⟨_, e, he, hstepped⟩ := h.engine
  · exact hs e' (hsame ▸ he')
  · cases hbuilt.symm.trans he'
    exact engineGood_engineOfStaging s
  · cases hstepped.symm.trans he'
    exact (hs e he).engStep catalog

/-- Every instruction keeps states good, as a command or as a stage. -/
theorem StateGood.exec {i : Instr} {s t : State} (hs : StateGood s) (h : exec i s = .next t) : StateGood t := by
  obtain ⟨s', st, d, rfl, htouched, -⟩ | ⟨e, f, n, x, e', -, he, -, hn, he', rfl⟩ := exec_next_cases h
  · exact stateGood_respond (htouched.engine_good hs.engine_good) st d
  · have hgood : EngineGood e := hs.engine_good e he
    obtain rfl | rfl := he'
    · exact stateGood_toStage hgood hn f x
    · exact stateGood_toStage (hgood.engStep catalog) hn f x

/-- Settles O51: each case of a step keeps the invariant, `BUILD` because every parsed plugboard is an involution. -/
theorem everyStepKeepsStatesGood : Obligations.EveryStepKeepsStatesGood := by
  intro s t hs h
  cases step_next_cases h with
  | reset _ _ ht => exact ht ▸ stateGood_takeReset s
  | hold _ _ ht => exact ht ▸ hs
  | stage _ _ _ _ _ ht => exact hs.exec ht
  | command _ _ _ _ _ _ ht => exact hs.accept.exec ht
  | undecodable _ _ _ _ _ _ ht => exact ht ▸ stateGood_respond hs.accept.engine_good _ _

/-! ### `VALID` -/

@[simp] theorem State.respond_valid (s : State) (st : Status) (data : Byte) :
    (s.respond st data).valid = s.valid := rfl

@[simp] theorem State.accept_valid (s : State) : s.accept.valid = s.valid := rfl

/-- What an instruction may have written of the engine is an engine again. -/
theorem Touched.valid {i : Instr} {s s' : State} (h : Touched i s s') (hs : s.valid = true) : s'.valid = true := by
  obtain hsame | ⟨_, hbuilt⟩ | ⟨_, e, _, hstepped⟩ := h.engine
  · simpa [State.valid, hsame] using hs
  · simp [State.valid, hbuilt]
  · simp [State.valid, hstepped]

/-- No instruction clears `VALID` (R14). -/
theorem exec_valid {i : Instr} {s t : State} (h : exec i s = .next t) (hs : s.valid = true) : t.valid = true := by
  obtain ⟨s', st, d, rfl, htouched, -⟩ | ⟨e, f, n, x, e', -, -, -, -, -, rfl⟩ := exec_next_cases h
  · simpa using htouched.valid hs
  · simp [State.valid]

/-- Settles O53: of the cases of a step, only the excluded reset loses the engine. -/
theorem onlyResetDestroysTheEngine : Obligations.OnlyResetDestroysTheEngine := by
  intro s t hs hreset h
  cases step_next_cases h with
  | reset _ hi _ => simp [hi] at hreset
  | hold _ _ ht => exact ht ▸ hs
  | stage _ _ _ _ _ ht => exact exec_valid ht hs
  | command _ _ _ _ _ _ ht => exact exec_valid ht (by simpa using hs)
  | undecodable _ _ _ _ _ _ ht => simpa [ht] using hs

/-! ### The reset values -/

/-- After reset all four causes of a `ConfigurationError` hold (R94, R128). -/
theorem causeMask_reset : State.reset.causeMask = 0x0F#8 := by decide

/-- A `BUILD` with a cause against it answers the mask (R94, R116). -/
theorem exec_build_of_causeMask_ne_zero {s : State} (h : s.causeMask ≠ 0x00#8) :
    exec .build s = .next (s.respond .configurationError s.causeMask) := by
  simp [exec, execBuild, h]

/-- A `BUILD` straight after reset reports every cause and leaves the state as it is (R29, R116). -/
theorem exec_build_reset : exec .build State.reset = .next { State.reset with outbox := [0x1000000F#32] } := by
  have hword : responseWord .configurationError 0x0F#8 = 0x1000000F#32 := by decide
  rw [exec_build_of_causeMask_ne_zero (by decide), causeMask_reset, State.respond, hword]
  rfl

/-- Settles O9: the register values are those `State.reset` is defined by, and `BUILD` finds all four causes. -/
theorem resetValuesAreThoseOfTheSpec : Obligations.ResetValuesAreThoseOfTheSpec :=
  ⟨rfl, rfl, rfl, rfl, rfl, rfl, rfl, rfl, exec_build_reset⟩

end Sys2Proof.Machine

/-! ## The sequencer and the port: a step runs the code fetched, idle stays idle, the stages do one `ENCC` -/

namespace Sys2Proof.Machine

/-! ### A step runs the code that is fetched -/

theorem step_of_fetch_run {s t : State} {c : Code} {i : Instr} (hf : s.fetch = .run c t) (hd : decode c = .ok i) :
    step s = exec i t := by
  simp [step, hf, hd]

/-- Settles O5: between commands the fetch is the next command word, on the state with that word taken. -/
theorem stepRunsDecodedCommand : Obligations.StepRunsDecodedCommand :=
  fun _ _ _ _ hi hs hd => step_of_fetch_run (State.fetch_command hi hs) hd

/-! ### Between commands -/

/-- An instruction run between commands hands no letter on, because it finds none (R19). -/
theorem exec_idle {i : Instr} {s t : State} (hs : Idle s) (h : exec i s = .next t) : Idle t := by
  obtain ⟨s', st, d, rfl, -, -⟩ | ⟨e, f, n, x, e', -, -, hf, -, -, -⟩ := exec_next_cases h
  · exact State.respond_seq s' st d
  · simp [hs] at hf

/-- Settles O56: of the cases of a step, only a stage could hand a letter on, and it needs one in flight. -/
theorem hostCannotReachAStage : Obligations.HostCannotReachAStage := by
  intro s t hs h
  cases step_next_cases h with
  | reset _ _ ht => exact ht ▸ State.takeReset_seq s
  | hold _ _ ht => exact ht ▸ hs
  | stage f _ hf _ _ _ => simp [hs] at hf
  | command _ _ _ _ _ _ ht => exact exec_idle (s := s.accept) hs ht
  | undecodable _ _ _ _ _ _ ht => exact ht ▸ State.respond_seq s.accept _ _

/-! ### Runs -/

theorem run_succ_of_step_next {s t : State} (h : step s = .next t) (k : Nat) : core.run (k + 1) s = core.run k t := by
  have hcore : core.step s = .next t := h
  simp only [Host.Core.run, hcore]

theorem run_one_of_step_next {s t : State} (h : step s = .next t) : core.run 1 s = .next t :=
  run_succ_of_step_next h 0

/-! ### A letter on its way through the stages -/

/-- `s` with the letter `ch` in flight, at stage `n` and with the signal `x` (R100). -/
def State.carrying (s : State) (n : BitVec 4) (ch : Byte) (x : Idx) : State := { s with seq := some ⟨n, ch, x⟩ }

section
variable {s : State} {e : Engine} {n m : BitVec 4} {ch : Byte} {x : Idx} {i : Instr}

@[simp] theorem State.carrying_respond (st : Status) (d : Byte) :
    (s.carrying n ch x).respond st d = s.respond st d := rfl

@[simp] theorem State.carrying_toStage (y : Idx) :
    (s.carrying n ch x).toStage ⟨n, ch, x⟩ m y = s.carrying m ch y := rfl

theorem withLetter_carrying (he : s.engine = some e) (k : Engine → InFlight → Result) :
    (s.carrying n ch x).withLetter k = k e ⟨n, ch, x⟩ :=
  State.withLetter_some (s := s.carrying n ch x) he rfl k

theorem signalStage_carrying (he : s.engine = some e) (op : Engine → Idx → Idx) :
    signalStage m op (s.carrying n ch x) = .next (s.carrying m ch (op e x)) :=
  signalStage_some (s := s.carrying n ch x) he rfl m op

/-- With no reset input first, a step runs the stage at which the letter stands (R100). -/
theorem step_carrying (hi : s.inbox.head? ≠ some .reset) (hd : decode (.stage n) = .ok i) :
    step (s.carrying n ch x) = exec i (s.carrying n ch x) :=
  step_of_fetch_run (State.fetch_stage rfl hi) hd

/-- Stage 0 on a letter (R100). -/
theorem exec_classify_letter {c0 : Idx} (he : s.engine = some e) (hc : letterIdx ch = some c0) :
    exec .classify (s.carrying n ch x) = .next (s.carrying 1#4 ch c0) := by
  simp [exec, execClassify, withLetter_carrying he, hc]

/-- Stage 0 on a code that is no letter: the command ends (R100, R103). -/
theorem exec_classify_nonLetter (he : s.engine = some e) (hc : letterIdx ch = none) :
    exec .classify (s.carrying n ch x) = .next (s.respond .ok ch) := by
  simp [exec, execClassify, withLetter_carrying he, hc]

/-- Stage 1 (R96, R100). -/
theorem exec_step_carrying (he : s.engine = some e) :
    exec .step (s.carrying n ch x) =
      .next ({ s with engine := some (engStep catalog e) }.carrying 2#4 ch x) := by
  simp only [exec, execStep, withLetter_carrying he]
  rfl

/-- Stage 11 (R102). -/
theorem exec_emit_carrying (he : s.engine = some e) :
    exec .emit (s.carrying n ch x) = .next (s.respond .ok (letterOf x)) := by
  simp [exec, execEmit, withLetter_carrying he]

/-- A run of the sequencer goes through a stage that only transforms the signal (R99, R100). -/
theorem run_signalStage (he : s.engine = some e) (hi : s.inbox.head? ≠ some .reset) (i : Instr)
    {op : Engine → Idx → Idx} (hd : decode (.stage n) = .ok i) (hop : exec i = signalStage m op) (k : Nat) :
    core.run (k + 1) (s.carrying n ch x) = core.run k (s.carrying m ch (op e x)) := by
  refine run_succ_of_step_next ?_ k
  rw [step_carrying hi hd, hop, signalStage_carrying he]

/-- Stages 2 to 11 are `ENG.PATH`, operation by operation, and its answer (R99, R100). -/
theorem run_signalPath (he : s.engine = some e) (hi : s.inbox.head? ≠ some .reset) (ch : Byte) (c0 : Idx) :
    core.run 10 (s.carrying 2#4 ch c0) = .next (s.respond .ok (letterOf (engPath catalog e c0))) := by
  rw [run_signalStage he hi .plugIn rfl rfl, run_signalStage he hi .rFwd rfl rfl,
    run_signalStage he hi .mFwd rfl rfl, run_signalStage he hi .lFwd rfl rfl,
    run_signalStage he hi .refl rfl rfl, run_signalStage he hi .lBwd rfl rfl,
    run_signalStage he hi .mBwd rfl rfl, run_signalStage he hi .rBwd rfl rfl,
    run_signalStage he hi .plugOut rfl rfl]
  exact run_one_of_step_next ((step_carrying hi rfl).trans (exec_emit_carrying he))

/-- The twelve stages of a letter: classify, step, and the signal path on the new positions (R100, R101). -/
theorem run_stages_letter {c0 : Idx} (he : s.engine = some e) (hi : s.inbox.head? ≠ some .reset)
    (hc : letterIdx ch = some c0) :
    core.run 12 (s.carrying 0#4 ch x) =
      .next ({ s with engine := some (engStep catalog e) }.respond .ok
        (letterOf (engPath catalog (engStep catalog e) c0))) := by
  have hclassify := (step_carrying (x := x) hi rfl).trans (exec_classify_letter (n := 0#4) he hc)
  have hstep := (step_carrying (ch := ch) (x := c0) hi rfl).trans (exec_step_carrying (n := 1#4) he)
  rw [run_succ_of_step_next hclassify, run_succ_of_step_next hstep]
  exact run_signalPath (s := { s with engine := some (engStep catalog e) }) rfl hi ch c0

/-- The one stage of a code that is no letter (R100, R103). -/
theorem run_stages_nonLetter (he : s.engine = some e) (hi : s.inbox.head? ≠ some .reset)
    (hc : letterIdx ch = none) :
    core.run 1 (s.carrying 0#4 ch x) = .next (s.respond .ok ch) :=
  run_one_of_step_next ((step_carrying hi rfl).trans (exec_classify_nonLetter he hc))

/-! ### The atomic command -/

/-- `ENCC` with count 1 and an engine is `ENG.CHAR` (R118). -/
theorem exec_encc_one (he : s.engine = some e) (ch : Byte) :
    exec (.encc 1#2 ch) s =
      .next ({ s with engine := some (engChar catalog e ch).1 }.respond .ok (engChar catalog e ch).2) :=
  State.withEngine_some he _

theorem exec_encc_letter {c0 : Idx} (he : s.engine = some e) (hc : letterIdx ch = some c0) :
    exec (.encc 1#2 ch) s =
      .next ({ s with engine := some (engStep catalog e) }.respond .ok
        (letterOf (engPath catalog (engStep catalog e) c0))) := by
  rw [exec_encc_one he, engChar_letter catalog e hc]

theorem exec_encc_nonLetter (he : s.engine = some e) (hc : letterIdx ch = none) :
    exec (.encc 1#2 ch) s = .next (s.respond .ok ch) := by
  rw [exec_encc_one he, engChar_nonLetter catalog e hc, ← he]

end

/-- Settles O35: both sides are the one outcome of a letter, or of a code that is no letter. -/
theorem stagesRefineTheAtomicCommand : Obligations.StagesRefineTheAtomicCommand := by
  intro s e ch x he hi
  rw [← letterIdx_isSome]
  cases hc : letterIdx ch with
  | none => exact (run_stages_nonLetter he hi hc).trans (exec_encc_nonLetter he hc).symm
  | some c0 => exact (run_stages_letter he hi hc).trans (exec_encc_letter he hc).symm

end Sys2Proof.Machine

/-! ## The encoding: the decoder's equations, its words and the opcode map, and the answer of every command word -/

namespace Sys2Proof.Machine

open Sys2Proof.Laws

/-! ### The decoder, opcode by opcode -/

theorem ifReservedZero_of_zero {w : Word} {lo len : Nat} (h : field w lo len = 0#len) (mnemonic : String) (i : Instr) :
    ifReservedZero w lo len mnemonic i = .ok i :=
  if_pos h

theorem ifReservedZero_eq_ok {w : Word} {lo len : Nat} {mnemonic : String} {i j : Instr} :
    ifReservedZero w lo len mnemonic i = .ok j ↔ field w lo len = 0#len ∧ i = j := by
  unfold ifReservedZero
  split <;> simp [*]

theorem decodeRdpos_eq_ok {k : BitVec 2} {i : Instr} : decodeRdpos k = .ok i ↔ k ≠ 3#2 ∧ .rdpos k = i := by
  unfold decodeRdpos
  split <;> simp [*]

section
variable {w : Word}

/-- R45, `OP = 1`, format S4. -/
theorem decode_opcode_setrot (hop : field w 28 4 = 0x1#4) (hz : field w 12 13 = 0#13) :
    decode (.command w) = .ok (.setrot (field w 25 3) (field w 8 4) (field w 4 4) (field w 0 4)) := by
  simp only [decode, decodeCommand, hop, ifReservedZero_of_zero hz]

/-- R45, `OP = 2`, format S5. -/
theorem decode_opcode_setpos (hop : field w 28 4 = 0x2#4) (hz : field w 15 10 = 0#10) :
    decode (.command w) = .ok (.setpos (field w 25 3) (field w 10 5) (field w 5 5) (field w 0 5)) := by
  simp only [decode, decodeCommand, hop, ifReservedZero_of_zero hz]

/-- R45, `OP = 3`, format S5. -/
theorem decode_opcode_setring (hop : field w 28 4 = 0x3#4) (hz : field w 15 10 = 0#10) :
    decode (.command w) = .ok (.setring (field w 25 3) (field w 10 5) (field w 5 5) (field w 0 5)) := by
  simp only [decode, decodeCommand, hop, ifReservedZero_of_zero hz]

/-- R45, `OP = 4`, format C. -/
theorem decode_opcode_setref (hop : field w 28 4 = 0x4#4) (hz : field w 8 20 = 0#20) :
    decode (.command w) = .ok (.setref (field w 0 8)) := by
  simp only [decode, decodeCommand, hop, ifReservedZero_of_zero hz]

/-- R45, `OP = 5`, format Z. -/
theorem decode_opcode_plugclr (hop : field w 28 4 = 0x5#4) (hz : field w 0 28 = 0#28) :
    decode (.command w) = .ok .plugclr := by
  simp only [decode, decodeCommand, hop, ifReservedZero_of_zero hz]

/-- R45, `OP = 6`, format C. -/
theorem decode_opcode_plugch (hop : field w 28 4 = 0x6#4) (hz : field w 8 20 = 0#20) :
    decode (.command w) = .ok (.plugch (field w 0 8)) := by
  simp only [decode, decodeCommand, hop, ifReservedZero_of_zero hz]

/-- R45, `OP = 7`, format Z. -/
theorem decode_opcode_build (hop : field w 28 4 = 0x7#4) (hz : field w 0 28 = 0#28) :
    decode (.command w) = .ok .build := by
  simp only [decode, decodeCommand, hop, ifReservedZero_of_zero hz]

/-- R45, `OP = 8`, format E. -/
theorem decode_opcode_encc (hop : field w 28 4 = 0x8#4) (hz : field w 10 18 = 0#18) :
    decode (.command w) = .ok (.encc (field w 8 2) (field w 0 8)) := by
  simp only [decode, decodeCommand, hop, ifReservedZero_of_zero hz]

/-- R45, `OP = 9`, format K, the slot that names no rotor apart. -/
theorem decode_opcode_rdpos (hop : field w 28 4 = 0x9#4) (hz : field w 2 26 = 0#26) (hk : field w 0 2 ≠ 3#2) :
    decode (.command w) = .ok (.rdpos (field w 0 2)) := by
  simp only [decode, decodeCommand, hop, hz, decodeRdpos, hk, if_true, if_false]

/-- A command word that the decoder accepts is the encoding of its instruction: opcode and reserved bits are fixed by the
decoder's checks, and every other bit is in a field of the format (R44, R52). -/
theorem encode_of_decode_command {i : Instr} (h : decode (.command w) = .ok i) : encode i = .command w := by
  simp only [decode, decodeCommand] at h
  split at h
  case h_1 hop =>
    obtain ⟨hz, rfl⟩ := ifReservedZero_eq_ok.mp h
    simpa [encode, hop, hz] using (word_fields_S4 w).symm
  case h_2 hop =>
    obtain ⟨hz, rfl⟩ := ifReservedZero_eq_ok.mp h
    simpa [encode, hop, hz] using (word_fields_S5 w).symm
  case h_3 hop =>
    obtain ⟨hz, rfl⟩ := ifReservedZero_eq_ok.mp h
    simpa [encode, hop, hz] using (word_fields_S5 w).symm
  case h_4 hop =>
    obtain ⟨hz, rfl⟩ := ifReservedZero_eq_ok.mp h
    simpa [encode, hop, hz] using (word_fields_C w).symm
  case h_5 hop =>
    obtain ⟨hz, rfl⟩ := ifReservedZero_eq_ok.mp h
    simpa [encode, hop, hz] using (word_fields_Z w).symm
  case h_6 hop =>
    obtain ⟨hz, rfl⟩ := ifReservedZero_eq_ok.mp h
    simpa [encode, hop, hz] using (word_fields_C w).symm
  case h_7 hop =>
    obtain ⟨hz, rfl⟩ := ifReservedZero_eq_ok.mp h
    simpa [encode, hop, hz] using (word_fields_Z w).symm
  case h_8 hop =>
    obtain ⟨hz, rfl⟩ := ifReservedZero_eq_ok.mp h
    simpa [encode, hop, hz] using (word_fields_E w).symm
  case h_9 hop =>
    split at h
    · next hz =>
      obtain ⟨-, rfl⟩ := decodeRdpos_eq_ok.mp h
      simpa [encode, hop, hz] using (word_fields_K w).symm
    · simp at h
  case h_10 => simp at h

/-- Settles O4: the decoder run on the twenty words of R57. -/
theorem workedEncodingsDecode : Obligations.WorkedEncodingsDecode := by
  unfold Obligations.WorkedEncodingsDecode
  decide

/-! ### The opcode map -/

/-- Every instruction encodes into its own row of the opcode map (R45, R100). -/
theorem inRow_encode (i : Instr) : inRow (mnemonicOf i) (encode i) := by
  cases i with
  | setrot n sl sm sr => exact TableRow.setrot n sl sm sr
  | setpos n vl vm vr => exact TableRow.setpos n vl vm vr
  | setring n vl vm vr => exact TableRow.setring n vl vm vr
  | setref ch => exact TableRow.setref ch
  | plugclr => exact TableRow.plugclr
  | plugch ch => exact TableRow.plugch ch
  | build => exact TableRow.build
  | encc cnt ch => exact TableRow.encc cnt ch
  | rdpos k => exact TableRow.rdpos k
  | classify | step | plugIn | rFwd | mFwd | lFwd | refl | lBwd | mBwd | rBwd | plugOut | emit => rfl

/-- What a mask covers, the masked word tells: a field under ones of the mask is the field of the row's value. -/
theorem field_of_masked {mask value : Word} {lo len : Nat} {v : BitVec len} (hw : w &&& mask = value)
    (hmask : field mask lo len = BitVec.allOnes len) (hvalue : field value lo len = v) : field w lo len = v := by
  have hand : field (w &&& mask) lo len = field w lo len &&& field mask lo len := BitVec.extractLsb'_and
  rw [← hvalue, ← hw, hand, hmask, BitVec.and_allOnes]

/-- `RDPOS` with `K = 3` is the one word `0x90000003` (R53). -/
theorem word_of_rdpos_three (hop : field w 28 4 = 0x9#4) (hz : field w 2 26 = 0#26) (hk : field w 0 2 = 3#2) :
    w = 0x90000003#32 := by
  rw [word_fields_K w, hop, hz, hk]
  decide

/-- A word that matches a row of the map has that row's opcode and zeros in its reserved field, so it decodes; the slot
that names no rotor is the one word excluded (R45, R52, R53). -/
theorem decode_of_matches_row (hne : w ≠ 0x90000003#32) (h : ∃ r ∈ opcodeRows, w &&& r.mask = r.value) :
    ∃ i, decode (.command w) = .ok i := by
  simp only [opcodeRows, List.exists_mem_cons_iff, List.not_mem_nil, false_and, exists_false, or_false] at h
  obtain hw | hw | hw | hw | hw | hw | hw | hw | hw := h
  · exact ⟨_, decode_opcode_setrot (field_of_masked hw rfl rfl) (field_of_masked hw rfl rfl)⟩
  · exact ⟨_, decode_opcode_setpos (field_of_masked hw rfl rfl) (field_of_masked hw rfl rfl)⟩
  · exact ⟨_, decode_opcode_setring (field_of_masked hw rfl rfl) (field_of_masked hw rfl rfl)⟩
  · exact ⟨_, decode_opcode_setref (field_of_masked hw rfl rfl) (field_of_masked hw rfl rfl)⟩
  · exact ⟨_, decode_opcode_plugclr (field_of_masked hw rfl rfl) (field_of_masked hw rfl rfl)⟩
  · exact ⟨_, decode_opcode_plugch (field_of_masked hw rfl rfl) (field_of_masked hw rfl rfl)⟩
  · exact ⟨_, decode_opcode_build (field_of_masked hw rfl rfl) (field_of_masked hw rfl rfl)⟩
  · exact ⟨_, decode_opcode_encc (field_of_masked hw rfl rfl) (field_of_masked hw rfl rfl)⟩
  · have hop : field w 28 4 = 0x9#4 := field_of_masked hw rfl rfl
    have hz : field w 2 26 = 0#26 := field_of_masked hw rfl rfl
    exact ⟨_, decode_opcode_rdpos hop hz fun hk => hne (word_of_rdpos_three hop hz hk)⟩

/-- A word that decodes is the encoding of its instruction, which lies in a row of the map. -/
theorem matches_row_of_decode {i : Instr} (h : decode (.command w) = .ok i) :
    ∃ r ∈ opcodeRows, w &&& r.mask = r.value := by
  have hrow : inRow (mnemonicOf i) (.command w) := encode_of_decode_command h ▸ inRow_encode i
  obtain ⟨r, hr, -, hw⟩ := hrow
  exact ⟨r, hr, hw⟩

end

/-- Settles O3: an accepted word is an encoding, which lies in its row; a word in a row decodes field by field. -/
theorem commandWordsAreTheRowsOfTheMap : Obligations.CommandWordsAreTheRowsOfTheMap := by
  refine fun w => ⟨fun ⟨i, hd⟩ => ⟨?_, matches_row_of_decode hd⟩, fun ⟨hne, hrow⟩ => decode_of_matches_row hne hrow⟩
  rintro rfl
  have hreject : decode (.command 0x90000003#32) = .error .noSuchSlot := by decide
  simp [hreject] at hd

/-! ### One command word, one response word -/

theorem statusCode_le_four (st : Status) : (statusCode st).toNat ≤ 4 := by
  cases st <;> decide

/-- Bits 31 to 28 of a response word are its status (R46). -/
@[simp] theorem responseStatus_responseWord (st : Status) (d : Byte) :
    responseStatus (responseWord st d) = statusCode st := by
  refine BitVec.eq_of_getLsbD_eq fun i hi => ?_
  have hword : 28 + i < 32 ∧ i < 32 := by omega
  have hdata : d.getLsbD (28 + i) = false := BitVec.getLsbD_of_ge d _ (by omega)
  simp [responseStatus, responseWord, hi, hword, hdata]

/-- Bits 27 to 8 of a response word are zero (R46). -/
@[simp] theorem responseWord_middle (st : Status) (d : Byte) : (responseWord st d).extractLsb' 8 20 = 0#20 := by
  refine BitVec.eq_of_getLsbD_eq fun i hi => ?_
  have hstatus : 8 + i < 28 := by omega
  simp [responseWord, hstatus]

/-- A command that needs an engine answers when it answers on every engine (R130). -/
theorem State.withEngine_answers {k : Engine → Result} (s : State) (hk : ∀ e, ∃ t, k e = .next t) :
    ∃ t, s.withEngine k = .next t := by
  cases he : s.engine with
  | none => exact ⟨_, State.withEngine_none he k⟩
  | some e => simpa only [State.withEngine_some he] using hk e

/-- An instruction that has a command word never faults and is never refused, in any state (R109, R133). -/
theorem exec_command_answers {i : Instr} {w : Word} (hi : encode i = .command w) (s : State) :
    ∃ t, exec i s = .next t := by
  cases i with
  | setrot | setpos | setring | setref | plugclr | plugch => exact ⟨_, rfl⟩
  | build =>
    simp only [exec, execBuild]
    split <;> exact ⟨_, rfl⟩
  | encc cnt ch =>
    refine s.withEngine_answers fun e => ?_
    split <;> exact ⟨_, rfl⟩
  | rdpos k =>
    simp only [exec, execRdpos]
    split
    · exact ⟨_, rfl⟩
    · exact s.withEngine_answers fun e => ⟨_, rfl⟩
  | classify | step | plugIn | rFwd | mFwd | lFwd | refl | lBwd | mBwd | rBwd | plugOut | emit => cases hi

/-- An instruction run between commands that answers ends with a response: it finds no letter to hand on (R19). -/
theorem answered_of_idle {i : Instr} {s t : State} (hs : Idle s) (h : exec i s = .next t) : Answered i s t := by
  obtain hans | ⟨e, f, n, x, e', -, -, hf, -⟩ := exec_next_cases h
  · exact hans
  · simp [hs] at hf

/-- Between commands, a command word is taken from the port and answered with one response word, whether or not it decodes
(R46, R109, R131). -/
theorem step_command_responds {s : State} {w : Word} {rest : List HostEvent} (hs : Idle s)
    (hi : s.inbox = .command w :: rest) :
    ∃ t st d, step s = .next t ∧ t.inbox = rest ∧ t.outbox = s.outbox ++ [responseWord st d] := by
  have hf := State.fetch_command hi hs
  cases hd : decode (.command w) with
  | ok i =>
    obtain ⟨t, ht⟩ := exec_command_answers (encode_of_decode_command hd) { s with inbox := rest }
    obtain ⟨s', st, d, rfl, htouched, -⟩ := answered_of_idle (s := { s with inbox := rest }) hs ht
    exact ⟨_, st, d, (step_of_fetch_run hf hd).trans ht, by simp [htouched.inbox], by simp [htouched.outbox]⟩
  | error err =>
    exact ⟨{ s with inbox := rest }.respond .illegalCommand 0x00#8, .illegalCommand, 0x00#8,
      by simp [step, hf, hd, reject], rfl, rfl⟩

/-- Settles O57: the one word appended is a response word, whose status is one of five and whose middle bits are zero. -/
theorem oneCommandOneResponse : Obligations.OneCommandOneResponse := by
  intro s w rest hs hi
  obtain ⟨t, st, d, ht, hin, hout⟩ := step_command_responds hs hi
  exact ⟨t, responseWord st d, ht, hin, hout, responseWord_middle st d, by simpa using statusCode_le_four st⟩

end Sys2Proof.Machine

/-! ## The printed wiring catalog -/

namespace Sys2Proof.Machine

/-- The fallback of R64 is the identity; each of the eight printed wirings is checked on its own table. -/
theorem isBijection_catWiring (s : Sel) : IsBijection (catWiring s) := by
  unfold catWiring
  split
  case h_9 => exact fun i j h => by simpa using h
  all_goals decide

/-- Reflectors B and C, and the fallback of D21, pair the indices (R81). -/
theorem isInvolution_catRefl (r : RefSel) : IsInvolution (catRefl r) := by
  cases r <;> decide

theorem lookup_catRefl_ne (r : RefSel) (i : Idx) : lookup (catRefl r) i ≠ i := by
  revert i
  cases r <;> decide

/-- The printed tables meet what the engine's laws ask of a catalog (R67). -/
theorem catalogSound_catalog : CatalogSound catalog where
  wiring_bijection := isBijection_catWiring
  refl_involution := isInvolution_catRefl

/-- Settles O37: the printed tables are sound, and no reflector fixes an index. -/
theorem printedCatalogIsSound : Obligations.PrintedCatalogIsSound :=
  ⟨catalogSound_catalog, lookup_catRefl_ne⟩

end Sys2Proof.Machine

/-! ## The rotor: the two passes are inverse, and the stages that run them -/

namespace Sys2Proof.Machine

/-! ### The passes undo each other -/

/-- Leaving a rotor takes back the shift of entering it (R71, R72). -/
theorem shift_then_unshift (c p r : Idx) : c + p - r - p + r = c := by abel

/-- Entering a rotor takes back the shift of leaving it (R71, R72). -/
theorem unshift_then_shift (c p r : Idx) : c - p + r + p - r = c := by abel

section
variable {cat : Catalog} {e : Engine} {k : Slot}

/-- At the shift of its slot, the forward wiring takes the result of the backward pass back to the signal (R74, R75). -/
theorem lookup_wiring_rotBwd (hw : IsBijection (cat.wiring (slotGet e.sel k))) (c : Idx) :
    lookup (cat.wiring (slotGet e.sel k)) (rotBwd cat e k c + slotGet e.pos k - slotGet e.ring k) =
      c + slotGet e.pos k - slotGet e.ring k := by
  rw [rotBwd_eq, unshift_then_shift, lookup_inverse _ hw]

/-- The backward wiring does the same with the result of the forward pass (R72, R75). -/
theorem lookup_inverse_rotFwd (hw : IsBijection (cat.wiring (slotGet e.sel k))) (c : Idx) :
    lookup (inverse (cat.wiring (slotGet e.sel k))) (rotFwd cat e k c + slotGet e.pos k - slotGet e.ring k) =
      c + slotGet e.pos k - slotGet e.ring k := by
  rw [rotFwd_eq, unshift_then_shift, inverse_lookup _ hw]

theorem rotBwd_rotFwd (hw : IsBijection (cat.wiring (slotGet e.sel k))) (c : Idx) :
    rotBwd cat e k (rotFwd cat e k c) = c := by
  rw [rotBwd_eq, lookup_inverse_rotFwd hw, shift_then_unshift]

theorem rotFwd_rotBwd (hw : IsBijection (cat.wiring (slotGet e.sel k))) (c : Idx) :
    rotFwd cat e k (rotBwd cat e k c) = c := by
  rw [rotFwd_eq, lookup_wiring_rotBwd hw, shift_then_unshift]

end

/-- Settles O36: the shifts cancel, and the inverse table undoes a bijective wiring from either side. -/
theorem rotorPassesAreInverse : Obligations.RotorPassesAreInverse :=
  fun _ _ _ c hw => ⟨rotBwd_rotFwd hw c, rotFwd_rotBwd hw c⟩

/-! ### The rotor stages -/

section
variable {s : State} {e : Engine} {f : InFlight}

/-- A stage that runs the forward pass of a slot (R72, R100). -/
theorem signalStage_rotFwd (he : s.engine = some e) (hf : s.seq = some f) (n : BitVec 4) (k : Slot) :
    signalStage n (fun e x => rotFwd catalog e k x) s =
      .next (s.toStage f n
        (lookup (catWiring (slotGet e.sel k)) (f.sig + slotGet e.pos k - slotGet e.ring k) -
          slotGet e.pos k + slotGet e.ring k)) := by
  rw [signalStage_some he hf, rotFwd_eq]
  rfl

/-- A stage that runs the backward pass of a slot, over the printed wirings, which are bijections (R68, R74, R100). -/
theorem signalStage_rotBwd (he : s.engine = some e) (hf : s.seq = some f) (n : BitVec 4) (k : Slot) :
    ∃ y, lookup (catWiring (slotGet e.sel k)) (y + slotGet e.pos k - slotGet e.ring k) =
        f.sig + slotGet e.pos k - slotGet e.ring k ∧
      signalStage n (fun e x => rotBwd catalog e k x) s = .next (s.toStage f n y) :=
  ⟨rotBwd catalog e k f.sig, lookup_wiring_rotBwd (cat := catalog) (isBijection_catWiring _) _,
    signalStage_some he hf _ _⟩

end

/-- Settles O30: each of the three stages is the forward pass of its slot. -/
theorem forwardStagesApplyTheFormula : Obligations.ForwardStagesApplyTheFormula := fun _ _ _ he hf =>
  ⟨signalStage_rotFwd he hf 4#4 .right, signalStage_rotFwd he hf 5#4 .middle, signalStage_rotFwd he hf 6#4 .left⟩

/-- Settles O32: each of the three stages is the backward pass of its slot, whose result is the index asked for. -/
theorem backwardStagesInvertTheWiring : Obligations.BackwardStagesInvertTheWiring := fun _ _ _ he hf =>
  ⟨signalStage_rotBwd he hf 8#4 .left, signalStage_rotBwd he hf 9#4 .middle, signalStage_rotBwd he hf 10#4 .right⟩

end Sys2Proof.Machine

/-! ## The reflector stage -/

namespace Sys2Proof.Machine

/-- Over the printed tables the reflector pass is an entry of the live reflector's table (R65, R66, R79). -/
theorem reflFwd_catalog (e : Engine) (c : Idx) : reflFwd catalog e c = (catRefl e.ref)[c] := rfl

theorem exec_refl (s : State) : exec .refl s = signalStage 7#4 (reflFwd catalog) s := rfl

/-- Settles O31: the stage puts the signal through the reflector pass, which reads the live reflector's table. -/
theorem reflectorStageReflects : Obligations.ReflectorStageReflects := by
  intro s e f he hf
  rw [exec_refl, signalStage_some he hf, reflFwd_catalog, State.toStage]

end Sys2Proof.Machine

/-! ## The plugboard: its tokens, the table they build, the bounded digest, and the two stages -/

namespace Sys2Proof.Machine

/-! ### Tokens -/

section
variable {ch : Byte} {i : Idx}

/-- The end of a specification closes the open token, if it has a letter (R84). -/
theorem plugTokensFrom_nil (cur : List Idx) : plugTokensFrom cur [] = if cur = [] then [] else [cur] := rfl

/-- A letter lengthens the open token (R84). -/
theorem plugTokensFrom_letter (h : letterIdx ch = some i) (cur : List Idx) (rest : List Byte) :
    plugTokensFrom cur (ch :: rest) = plugTokensFrom (cur ++ [i]) rest := by
  simp [plugTokensFrom, h]

/-- A separator closes the open token as the end of a specification does, and leaves none open (R84). -/
theorem plugTokensFrom_separator (h : letterIdx ch = none) (cur : List Idx) (rest : List Byte) :
    plugTokensFrom cur (ch :: rest) = plugTokensFrom cur [] ++ plugTokensFrom [] rest := by
  by_cases hcur : cur = [] <;> simp [plugTokensFrom, h, hcur]

end

theorem nil_notMem_plugTokensFrom_nil (cur : List Idx) : [] ∉ plugTokensFrom cur [] := by
  by_cases hcur : cur = [] <;> simp [plugTokensFrom_nil, hcur, eq_comm]

@[simp] theorem flatten_plugTokensFrom_nil (cur : List Idx) : (plugTokensFrom cur []).flatten = cur := by
  by_cases hcur : cur = [] <;> simp [plugTokensFrom_nil, hcur]

/-- No token is empty, however many separators stand together (D18). -/
theorem nil_notMem_plugTokensFrom (cur : List Idx) (spec : List Byte) : [] ∉ plugTokensFrom cur spec := by
  induction spec generalizing cur with
  | nil => exact nil_notMem_plugTokensFrom_nil cur
  | cons ch rest ih =>
    cases h : letterIdx ch with
    | some i => simpa only [plugTokensFrom_letter h] using ih _
    | none =>
      rw [plugTokensFrom_separator h, List.mem_append]
      exact not_or.mpr ⟨nil_notMem_plugTokensFrom_nil cur, ih []⟩

/-- The tokens hold the letters in order, those of the open token first (R84). -/
theorem flatten_plugTokensFrom (cur : List Idx) (spec : List Byte) :
    (plugTokensFrom cur spec).flatten = cur ++ spec.filterMap letterIdx := by
  induction spec generalizing cur with
  | nil => simp
  | cons ch rest ih =>
    cases h : letterIdx ch with
    | some i => simp [plugTokensFrom_letter h, ih, h]
    | none => simp [plugTokensFrom_separator h, ih, h]

/-- What stands before a separator and what stands after it are cut into tokens apart (R84). -/
theorem plugTokensFrom_append_separator {sep : Byte} (hsep : letterIdx sep = none) (cur : List Idx)
    (a b : List Byte) : plugTokensFrom cur (a ++ sep :: b) = plugTokensFrom cur a ++ plugTokensFrom [] b := by
  induction a generalizing cur with
  | nil => exact plugTokensFrom_separator hsep cur b
  | cons ch rest ih =>
    cases h : letterIdx ch with
    | some i => simp [plugTokensFrom_letter h, ih]
    | none => simp [plugTokensFrom_separator h, ih]

/-- A run of letters all goes into the open token (R84). -/
theorem plugTokensFrom_run {spec : List Byte} (hrun : ∀ ch ∈ spec, isLetter ch = true) (cur : List Idx) :
    plugTokensFrom cur spec = plugTokensFrom (cur ++ spec.filterMap letterIdx) [] := by
  induction spec generalizing cur with
  | nil => simp
  | cons ch rest ih =>
    obtain ⟨hch, hrest⟩ := List.forall_mem_cons.mp hrun
    obtain ⟨i, hi⟩ := Option.isSome_iff_exists.mp ((letterIdx_isSome ch).trans hch)
    simp [plugTokensFrom_letter hi, ih hrest, hi]

/-- A run of at least one letter is one token (R84). -/
theorem plugTokens_run {spec : List Byte} (hne : spec ≠ []) (hrun : ∀ ch ∈ spec, isLetter ch = true) :
    plugTokens spec = [spec.filterMap letterIdx] := by
  have hletters : spec.filterMap letterIdx ≠ [] := by
    obtain ⟨ch, hch⟩ := List.exists_mem_of_ne_nil spec hne
    obtain ⟨i, hi⟩ := Option.isSome_iff_exists.mp ((letterIdx_isSome ch).trans (hrun ch hch))
    exact List.ne_nil_of_mem (List.mem_filterMap.mpr ⟨ch, hch, hi⟩)
  rw [plugTokens, plugTokensFrom_run hrun, List.nil_append, plugTokensFrom_nil, if_neg hletters]

/-- Settles O45: the four clauses are the laws of the tokens, with no token open at the start. -/
theorem tokensAreTheRunsOfLetters : Obligations.TokensAreTheRunsOfLetters :=
  ⟨nil_notMem_plugTokensFrom [], flatten_plugTokensFrom [],
    fun a b _ hsep => plugTokensFrom_append_separator (letterIdx_eq_none.mpr hsep) [] a b,
    fun _ hne hrun => plugTokens_run hne hrun⟩

/-! ### Validation and building -/

section
variable {p q : Perm} {used : List Idx} {tokens : List (List Idx)}

/-- The next token is accepted when it is a pair of letters that no pair has used (R85). -/
theorem plugPairs_cons_eq_some {t : List Idx} :
    plugPairs p used (t :: tokens) = some q ↔
      ∃ a b, t = [a, b] ∧ a ∉ used ∧ b ∉ used ∧
        plugPairs (swapPair p a b) (a :: b :: used) tokens = some q := by
  match t with
  | [] | [_] | _ :: _ :: _ :: _ => simp [plugPairs]
  | [a, b] => by_cases ha : a ∈ used <;> by_cases hb : b ∈ used <;> simp [plugPairs, ha, hb]

/-- A pair that shares no letter with `used` or the later tokens is a pair that may join the used letters. -/
theorem pairwise_disjoint_pair {a b : Idx} :
    (used :: [a, b] :: tokens).Pairwise List.Disjoint ↔
      a ∉ used ∧ b ∉ used ∧ ((a :: b :: used) :: tokens).Pairwise List.Disjoint := by
  simp only [List.pairwise_cons, List.forall_mem_cons, List.disjoint_cons_left, List.disjoint_cons_right,
    List.disjoint_nil_left, List.disjoint_nil_right, forall_and]
  tauto

/-- A specification is accepted when its tokens are pairs and share no letter with one another, nor with the letters
used before them (R85). -/
theorem plugPairs_isSome_iff :
    (plugPairs p used tokens).isSome ↔ (∀ t ∈ tokens, t.length = 2) ∧ (used :: tokens).Pairwise List.Disjoint := by
  induction tokens generalizing p used with
  | nil => simp [plugPairs]
  | cons t rest ih =>
    simp only [Option.isSome_iff_exists, plugPairs_cons_eq_some, List.forall_mem_cons] at ih ⊢
    constructor
    · rintro ⟨q, a, b, rfl, ha, hb, hq⟩
      obtain ⟨hlen, hdisj⟩ := ih.mp ⟨q, hq⟩
      exact ⟨⟨rfl, hlen⟩, pairwise_disjoint_pair.mpr ⟨ha, hb, hdisj⟩⟩
    · rintro ⟨⟨ht, hlen⟩, hdisj⟩
      obtain ⟨a, b, rfl⟩ := List.length_eq_two.mp ht
      obtain ⟨ha, hb, hrest⟩ := pairwise_disjoint_pair.mp hdisj
      obtain ⟨q, hq⟩ := (ih (p := swapPair p a b)).mpr ⟨hlen, hrest⟩
      exact ⟨q, a, b, rfl, ha, hb, hq⟩

/-- A letter of no token keeps its entry (R86). -/
theorem lookup_plugPairs_of_notMem (h : plugPairs p used tokens = some q) {c : Idx} (hc : ∀ t ∈ tokens, c ∉ t) :
    lookup q c = lookup p c := by
  induction tokens generalizing p used with
  | nil =>
    cases h
    rfl
  | cons t rest ih =>
    obtain ⟨a, b, rfl, -, -, hq⟩ := plugPairs_cons_eq_some.mp h
    obtain ⟨hcpair, hcrest⟩ := List.forall_mem_cons.mp hc
    obtain ⟨hca, hcb⟩ : c ≠ a ∧ c ≠ b := by simpa using hcpair
    rw [ih hq hcrest, lookup_swapPair, if_neg hcb, if_neg hca]

/-- The first letter of an accepted pair goes to the second: the later pairs do not touch it (R86). -/
theorem lookup_plugPairs_of_mem (h : plugPairs p used tokens = some q) {a b : Idx} (hab : [a, b] ∈ tokens) :
    lookup q a = b := by
  induction tokens generalizing p used with
  | nil => simp at hab
  | cons t rest ih =>
    obtain ⟨x, y, rfl, -, -, hq⟩ := plugPairs_cons_eq_some.mp h
    obtain heq | hrest := List.mem_cons.mp hab
    · obtain ⟨rfl, rfl⟩ : a = x ∧ b = y := by simpa using heq
      have hlater : ∀ t ∈ rest, a ∉ t := by
        have hdisj := (plugPairs_isSome_iff.mp (Option.isSome_of_eq_some hq)).2
        intro t ht
        exact List.rel_of_pairwise_cons hdisj ht List.mem_cons_self
      rw [lookup_plugPairs_of_notMem hq hlater, lookup_swapPair]
      by_cases hdouble : a = b <;> simp [hdouble]
    · exact ih hq hrest

end

/-- `PLUG.PARSE` accepts a specification of pairs that share no letter, and no other (R85). -/
theorem plugPairs_plugTokens_isSome_iff (spec : List Byte) :
    (plugPairs identityPerm [] (plugTokens spec)).isSome ↔
      (∀ t ∈ plugTokens spec, t.length = 2) ∧ (plugTokens spec).Pairwise List.Disjoint := by
  simp [plugPairs_isSome_iff]

/-- Settles O46: a specification with either defect is not accepted, and then the identity stands. -/
theorem malformedSpecificationGivesIdentity : Obligations.MalformedSpecificationGivesIdentity := by
  intro spec hbad i
  have hnone : plugPairs identityPerm [] (plugTokens spec) = none := by
    rw [← Option.not_isSome_iff_eq_none, plugPairs_plugTokens_isSome_iff]
    rintro ⟨hlen, hdisj⟩
    obtain ⟨t, ht, hne⟩ | hshare := hbad
    · exact hne (hlen t ht)
    · exact hshare hdisj
  rw [plugParse, hnone, Option.getD_none, lookup_identityPerm]

/-- Settles O47: the accepted table sends each first letter to the second, and back because it is an involution. -/
theorem wellFormedSpecificationSwapsItsPairs : Obligations.WellFormedSpecificationSwapsItsPairs := by
  intro spec hlen hdisj
  obtain ⟨q, hq⟩ := Option.isSome_iff_exists.mp ((plugPairs_plugTokens_isSome_iff spec).mpr ⟨hlen, hdisj⟩)
  have hparse : plugParse spec = q := by rw [plugParse, hq, Option.getD_some]
  have hinv : IsInvolution q := hparse ▸ isInvolution_plugParse spec
  rw [hparse]
  constructor
  · intro a b hab
    have hforth : lookup q a = b := lookup_plugPairs_of_mem hq hab
    exact ⟨hforth, by rw [← hforth, hinv]⟩
  · intro c hc
    rw [lookup_plugPairs_of_notMem hq hc, lookup_identityPerm]

/-! ### The table is a bijection and an involution -/

theorem IsInvolution.isBijection {t : Perm} (h : IsInvolution t) : IsBijection t :=
  Function.Involutive.injective h

theorem plugParse_AB : plugParse [0x41#8, 0x42#8] = swapPair identityPerm 0 1 := by decide

/-- Settles O48: the involution is kept by every pair built, and the table of `AB` is one swap. -/
theorem plugboardIsAlwaysAnInvolution : Obligations.PlugboardIsAlwaysAnInvolution := by
  refine ⟨fun spec => ⟨(isInvolution_plugParse spec).isBijection, isInvolution_plugParse spec⟩, ?_⟩
  rw [plugParse_AB]
  refine ⟨by simp [lookup_swapPair], by simp [lookup_swapPair], fun i h0 h1 => ?_⟩
  simp [lookup_swapPair, h0, h1]

/-! ### The bounded digest -/

/-- The registers `TLEN`, `T0` and `T1` hold the open token `cur`; of a token of three or more letters only that it is
too long (R91). -/
inductive PlugDigest.HoldsToken (d : PlugDigest) : List Idx → Prop where
  | empty (hlen : d.tlen = 0#2) : d.HoldsToken []
  | one (hlen : d.tlen = 1#2) : d.HoldsToken [d.t0]
  | two (hlen : d.tlen = 2#2) : d.HoldsToken [d.t0, d.t1]
  | tooLong (hlen : d.tlen = 3#2) (a b c : Idx) (rest : List Idx) : d.HoldsToken (a :: b :: c :: rest)

/-- The register `USED` holds the set of the letters `used` (R91). -/
def PlugDigest.HoldsUsed (d : PlugDigest) (used : List Idx) : Prop := ∀ i, plugDigestUses d i = true ↔ i ∈ used

/-- The table `PLUG.PARSE` gives when the closed tokens left the digest `d` and the letters `used`, and `tokens` are
still to come (R87, R91). -/
def PlugDigest.finish (d : PlugDigest) (used : List Idx) (tokens : List (List Idx)) : Perm :=
  if d.bad then identityPerm else (plugPairs d.map used tokens).getD identityPerm

section
variable {d : PlugDigest} {used cur : List Idx} {ch : Byte} {i : Idx}

/-- `USED + {a, b}` is the union of the sets. -/
theorem getLsbD_plugDigestUse (u : BitVec 26) (a b i : Idx) :
    (plugDigestUse u a b).getLsbD i.val = true ↔ i = a ∨ i = b ∨ u.getLsbD i.val = true := by
  have hbit (a : Idx) : (1#26 <<< a.val).getLsbD i.val = true ↔ i = a := by
    simp [Fin.ext_iff]
    omega
  simp only [plugDigestUse, BitVec.getLsbD_or, Bool.or_eq_true, hbit]
  tauto

/-- A letter joins the open token; what the closed tokens left stays (R91). -/
theorem plugDigestPush_letter (h : letterIdx ch = some i) (hcur : d.HoldsToken cur) :
    (plugDigestPush d ch).HoldsToken (cur ++ [i]) ∧ (plugDigestPush d ch).bad = d.bad ∧
      (plugDigestPush d ch).used = d.used ∧ (plugDigestPush d ch).map = d.map := by
  cases hcur with
  | empty hlen =>
    have hpush : plugDigestPush d ch = { d with t0 := i, tlen := 1#2 } := by simp [plugDigestPush, h, hlen]
    rw [hpush]
    exact ⟨.one rfl, rfl, rfl, rfl⟩
  | one hlen =>
    have hpush : plugDigestPush d ch = { d with t1 := i, tlen := 2#2 } := by simp [plugDigestPush, h, hlen]
    rw [hpush]
    exact ⟨.two rfl, rfl, rfl, rfl⟩
  | two hlen | tooLong hlen =>
    have hpush : plugDigestPush d ch = { d with tlen := 3#2 } := by simp [plugDigestPush, h, hlen]
    rw [hpush]
    exact ⟨.tooLong rfl _ _ _ _, rfl, rfl, rfl⟩

/-- A separator closes the open token (R91). -/
theorem plugDigestPush_separator (h : letterIdx ch = none) : plugDigestPush d ch = plugDigestClose d := by
  simp [plugDigestPush, h]

/-- Closing leaves no token open (R91). -/
theorem holdsToken_plugDigestClose (d : PlugDigest) : (plugDigestClose d).HoldsToken [] := by
  apply PlugDigest.HoldsToken.empty
  unfold plugDigestClose
  split
  · assumption
  · split
    · split <;> rfl
    · rfl

theorem plugDigestClose_of_empty (hlen : d.tlen = 0#2) : plugDigestClose d = d := if_pos hlen

/-- A token of length 1, or of 3 and more, is a defect (R85, R91). -/
theorem plugDigestClose_of_not_pair (h0 : d.tlen ≠ 0#2) (h2 : d.tlen ≠ 2#2) :
    plugDigestClose d = { d with bad := true, tlen := 0#2 } := by
  simp [plugDigestClose, h0, h2]

/-- A pair with a used letter is a defect (R85, R91). -/
theorem plugDigestClose_of_used_pair (hused : d.HoldsUsed used) (hlen : d.tlen = 2#2)
    (h : d.t0 ∈ used ∨ d.t1 ∈ used) : plugDigestClose d = { d with bad := true, tlen := 0#2 } := by
  rw [← hused, ← hused] at h
  simp [plugDigestClose, hlen, h]

/-- A pair of new letters is used and swapped (R86, R91). -/
theorem plugDigestClose_of_new_pair (hused : d.HoldsUsed used) (hlen : d.tlen = 2#2)
    (h : ¬ (d.t0 ∈ used ∨ d.t1 ∈ used)) :
    plugDigestClose d =
      { d with used := plugDigestUse d.used d.t0 d.t1, map := swapPair d.map d.t0 d.t1, tlen := 0#2 } := by
  rw [← hused, ← hused] at h
  simp [plugDigestClose, hlen, h]

/-- A digest that has met a defect finishes as the parse that rejects its tokens does: with the identity (R86). -/
theorem PlugDigest.finish_eq_of_rejected {d' : PlugDigest} {used' : List Idx} {tokens tokens' : List (List Idx)}
    (hbad : d'.bad = true) (hreject : plugPairs d.map used tokens = none) :
    d'.finish used' tokens' = d.finish used tokens := by
  simp [finish, hbad, hreject]

/-- To close the open token is to take it as the next token of the parse (R87, R91). -/
theorem exists_finish_plugDigestClose (hcur : d.HoldsToken cur) (hused : d.HoldsUsed used) :
    ∃ used', (plugDigestClose d).HoldsUsed used' ∧
      ∀ tokens, (plugDigestClose d).finish used' tokens = d.finish used (plugTokensFrom cur [] ++ tokens) := by
  cases hcur with
  | empty hlen =>
    rw [plugDigestClose_of_empty hlen]
    exact ⟨used, hused, fun _ => rfl⟩
  | one hlen | tooLong hlen =>
    rw [plugDigestClose_of_not_pair (by simp [hlen]) (by simp [hlen])]
    exact ⟨used, hused, fun _ => PlugDigest.finish_eq_of_rejected rfl rfl⟩
  | two hlen =>
    by_cases h : d.t0 ∈ used ∨ d.t1 ∈ used
    · rw [plugDigestClose_of_used_pair hused hlen h]
      exact ⟨used, hused, fun _ => PlugDigest.finish_eq_of_rejected rfl (by simp [plugTokensFrom_nil, plugPairs, h])⟩
    · rw [plugDigestClose_of_new_pair hused hlen h]
      refine ⟨d.t0 :: d.t1 :: used, fun i => ?_, fun tokens => ?_⟩
      · rw [plugDigestUses, getLsbD_plugDigestUse, List.mem_cons, List.mem_cons, ← hused, plugDigestUses]
      · simp [PlugDigest.finish, plugTokensFrom_nil, plugPairs, h]

/-- `BUILD` finishes the parse with the open token as the last one (R91). -/
theorem plugDigestResult_eq_finish (hcur : d.HoldsToken cur) (hused : d.HoldsUsed used) :
    plugDigestResult d = d.finish used (plugTokensFrom cur []) := by
  obtain ⟨used', -, hfinish⟩ := exists_finish_plugDigestClose hcur hused
  calc plugDigestResult d
      = (plugDigestClose d).finish used' [] := rfl
    _ = d.finish used (plugTokensFrom cur []) := by rw [hfinish, List.append_nil]

/-- The digest, fed the rest of a specification, gives what the parse of its tokens gives (R91). -/
theorem plugDigestResult_foldl (spec : List Byte) (hcur : d.HoldsToken cur) (hused : d.HoldsUsed used) :
    plugDigestResult (spec.foldl plugDigestPush d) = d.finish used (plugTokensFrom cur spec) := by
  induction spec generalizing d used cur with
  | nil => exact plugDigestResult_eq_finish hcur hused
  | cons ch rest ih =>
    rw [List.foldl_cons]
    cases h : letterIdx ch with
    | some i =>
      obtain ⟨hcur', hbad, hused', hmap⟩ := plugDigestPush_letter h hcur
      have hholds : (plugDigestPush d ch).HoldsUsed used := by
        simpa only [PlugDigest.HoldsUsed, plugDigestUses, hused'] using hused
      rw [ih hcur' hholds, plugTokensFrom_letter h, PlugDigest.finish, hbad, hmap, PlugDigest.finish]
    | none =>
      obtain ⟨used', hholds, hfinish⟩ := exists_finish_plugDigestClose hcur hused
      rw [plugDigestPush_separator h, ih (holdsToken_plugDigestClose d) hholds, hfinish, plugTokensFrom_separator h]

end

/-- Settles O49: the empty digest holds no letter and no token, and what it has to finish is the whole parse. -/
theorem digestDeterminesTheParse : Obligations.DigestDeterminesTheParse := fun spec =>
  plugDigestResult_foldl (d := plugDigestClear) (used := []) spec (.empty rfl) fun i => by
    simp [plugDigestUses, plugDigestClear]

/-! ### The plugboard stages -/

/-- A stage that puts the signal through the plugboard (R88, R100). -/
theorem signalStage_plugFwd {s : State} {e : Engine} {f : InFlight} (he : s.engine = some e) (hf : s.seq = some f)
    (n : BitVec 4) : signalStage n plugFwd s = .next (s.toStage f n e.plug[f.sig]) :=
  signalStage_some he hf n plugFwd

/-- Settles O29: both stages put the signal through the plugboard, and hand it on to stages 3 and 11. -/
theorem plugboardStagesSwapTheSignal : Obligations.PlugboardStagesSwapTheSignal := fun _ _ _ he hf =>
  ⟨signalStage_plugFwd he hf 3#4, signalStage_plugFwd he hf 11#4⟩

end Sys2Proof.Machine

/-! ## The round trip: every field of an encoding is read back -/

namespace Sys2Proof.Machine

/-! ### The fields of a word put together from fields -/

@[simp] theorem field_or (v w : Word) (lo len : Nat) : field (v ||| w) lo len = field v lo len ||| field w lo len :=
  BitVec.extractLsb'_or

/-- A field that fits into a word is read back where it was placed (R9). -/
@[simp] theorem field_place_same {len lo : Nat} (v : BitVec len) (h : lo + len ≤ 32) :
    field (place v lo) lo len = v := by
  refine BitVec.eq_of_getLsbD_eq fun i hi => ?_
  have hbit : lo + i < 32 ∧ i < 32 := by omega
  simp [field, place, hi, hbit]

/-- A field beside the one that was placed reads zero (R9). -/
@[simp] theorem field_place_disjoint {len lo lo' len' : Nat} (v : BitVec len)
    (h : lo' + len' ≤ lo ∨ lo + len ≤ lo') : field (place v lo) lo' len' = 0#len' := by
  refine BitVec.eq_of_getLsbD_eq fun i hi => ?_
  obtain hbelow | habove := h
  · have hbit : lo' + i < lo := by omega
    simp [field, place, hbit]
  · have hbit : v.getLsbD (lo' + i - lo) = false := BitVec.getLsbD_of_ge v _ (by omega)
    simp [field, place, hbit]

/-- Settles O1: the word put together from the fields of a command passes the checks of its opcode and gives the fields
back; a stage number is read by the decoder's table. -/
theorem decodeOfEncodeIsInstruction : Obligations.DecodeOfEncodeIsInstruction := by
  intro i hwf
  cases i with
  | setrot n sl sm sr => exact (decode_opcode_setrot (by simp) (by simp)).trans (by simp)
  | setpos n vl vm vr => exact (decode_opcode_setpos (by simp) (by simp)).trans (by simp)
  | setring n vl vm vr => exact (decode_opcode_setring (by simp) (by simp)).trans (by simp)
  | setref ch => exact (decode_opcode_setref (by simp) (by simp)).trans (by simp)
  | plugclr => exact decode_opcode_plugclr (by simp) (by simp)
  | plugch ch => exact (decode_opcode_plugch (by simp) (by simp)).trans (by simp)
  | build => exact decode_opcode_build (by simp) (by simp)
  | encc cnt ch => exact (decode_opcode_encc (by simp) (by simp)).trans (by simp)
  | rdpos k =>
    have hk : k ≠ 3#2 := by simpa [Instr.wellFormed] using hwf
    exact (decode_opcode_rdpos (by simp) (by simp) (by simpa using hk)).trans (by simp)
  | classify | step | plugIn | rFwd | mFwd | lFwd | refl | lBwd | mBwd | rBwd | plugOut | emit => rfl

end Sys2Proof.Machine

/-! ## The response to a character, and the stages that begin and end a letter -/

namespace Sys2Proof.Machine

/-! ### Characters and response words -/

/-- The letter of either case with index `i` has the index `i` (R50). -/
theorem letterIdx_of_range {ch : Byte} {i : Idx} (h : ch.toNat = 0x41 + i.val ∨ ch.toNat = 0x61 + i.val) :
    letterIdx ch = some i := by
  obtain ⟨j, hj, hrange⟩ | ⟨-, hupper, hlower⟩ := letterIdx_cases ch
  · have hij : j = i := Fin.ext (by omega)
    rw [hj, hij]
  · omega

/-- A code outside the two ranges is no letter (R50). -/
theorem letterIdx_of_not_range {ch : Byte} (hupper : ¬ (0x41 ≤ ch.toNat ∧ ch.toNat ≤ 0x5A))
    (hlower : ¬ (0x61 ≤ ch.toNat ∧ ch.toNat ≤ 0x7A)) : letterIdx ch = none := by
  obtain ⟨i, -, hrange⟩ | ⟨hnone, -⟩ := letterIdx_cases ch
  · omega
  · exact hnone

theorem isLetter_of_letterIdx {ch : Byte} {i : Idx} (h : letterIdx ch = some i) : isLetter ch = true := by
  simp [← letterIdx_isSome, h]

theorem not_isLetter_of_letterIdx {ch : Byte} (h : letterIdx ch = none) : ¬ isLetter ch = true := by
  simp [letterIdx_eq_none.mp h]

theorem toNat_letterOf : ∀ i : Idx, (letterOf i).toNat = 0x41 + i.val := by decide

/-- The response word of a success is its data, extended with zeros (R46, R47). -/
theorem responseWord_ok (d : Byte) : responseWord .ok d = BitVec.ofNat 32 d.toNat := by
  apply BitVec.eq_of_toNat_eq
  simp [responseWord, statusCode]

/-- The response word of an enciphered letter (R46, R102). -/
theorem responseWord_ok_letterOf (i : Idx) : responseWord .ok (letterOf i) = BitVec.ofNat 32 (0x41 + i.val) := by
  rw [responseWord_ok, toNat_letterOf]

/-! ### `ENCC` -/

/-- Settles O25: the outcome of `ENCC` on a letter, with its response word written out. -/
theorem letterIsSteppedThenEnciphered : Obligations.LetterIsSteppedThenEnciphered := by
  intro s e ch c0 he hch
  rw [exec_encc_letter he (letterIdx_of_range hch), State.respond, responseWord_ok_letterOf, engStep_eta]

/-- Settles O24: a code outside the two ranges has no index, and `ENCC` answers it as it is. -/
theorem nonLetterPassesThrough : Obligations.NonLetterPassesThrough := by
  intro s e ch he hupper hlower
  rw [exec_encc_nonLetter he (letterIdx_of_not_range hupper hlower), State.respond, responseWord_ok]

/-! ### Stages 0, 1 and 11 -/

/-- Settles O6: with no reset input first, the fetch is the stage at the counter. -/
theorem stepRunsStageInFlight : Obligations.StepRunsStageInFlight :=
  fun _ _ _ hs hi hd => step_of_fetch_run (State.fetch_stage hs hi) hd

theorem State.carrying_self {s : State} {f : InFlight} (hs : s.seq = some f) :
    s.carrying f.stage f.ch f.sig = s := by
  simp [State.carrying, ← hs]

/-- Settles O26: stage 0 hands a letter on with its index. -/
theorem classifyPassesALetterOn : Obligations.ClassifyPassesALetterOn := by
  intro s e f c0 he hs hch
  have hexec := exec_classify_letter (n := f.stage) (x := f.sig) he (letterIdx_of_range hch)
  rwa [State.carrying_self hs] at hexec

/-- Settles O27: stage 0 answers a code that has no index. -/
theorem classifyAnswersANonLetter : Obligations.ClassifyAnswersANonLetter := by
  intro s e f he hs hupper hlower
  have hexec := exec_classify_nonLetter (n := f.stage) (x := f.sig) he (letterIdx_of_not_range hupper hlower)
  rwa [State.carrying_self hs, State.respond, responseWord_ok] at hexec

/-- Settles O28: stage 1 is `ENG.STEP`, which touches the positions alone. -/
theorem stepStageTurnsTheRotors : Obligations.StepStageTurnsTheRotors := by
  intro s e f he hs
  have hexec := exec_step_carrying (n := f.stage) (ch := f.ch) (x := f.sig) he
  rwa [State.carrying_self hs, ← engStep_eta] at hexec

/-- Settles O33: stage 11 answers the letter of the signal. -/
theorem emitStageAnswersTheLetter : Obligations.EmitStageAnswersTheLetter := by
  intro s e f he hs
  have hexec := exec_emit_carrying (n := f.stage) (ch := f.ch) (x := f.sig) he
  rwa [State.carrying_self hs, State.respond, responseWord_ok_letterOf] at hexec

end Sys2Proof.Machine

/-! ## Stepping, messages and the signal path -/

namespace Sys2Proof.Machine

/-! ### Stepping -/

/-- Settles O38: the three branches of `ENG.STEP`, which test the notches before any rotor turns. -/
theorem stepIsOneParallelAssignment : Obligations.StepIsOneParallelAssignment := by
  intro cat e nM nR
  have hM : rotAtNotch cat e .middle = true ↔ nM := rotAtNotch_iff cat e .middle
  have hR : rotAtNotch cat e .right = true ↔ nR := rotAtNotch_iff cat e .right
  simp only [engStep, rotTurnover_eq, hM, hR]
  by_cases hnM : nM
  · simp [hnM, slotSet, slotGet]
  · by_cases hnR : nR <;> simp [hnM, hnR, slotSet, slotGet]

/-- Settles O39: the parallel assignment reads neither the left rotor's type nor a ring setting. -/
theorem leftNotchAndRingsDoNotSteer : Obligations.LeftNotchAndRingsDoNotSteer := by
  intro cat e e' hpos hmiddle hright
  rw [stepIsOneParallelAssignment cat e, stepIsOneParallelAssignment cat e', hpos, hmiddle, hright]

section
variable (cat : Catalog)

/-- The right rotor turns at every step (R96). -/
@[simp] theorem engStep_pos_right (e : Engine) : (engStep cat e).pos.right = e.pos.right + 1 := by
  rw [stepIsOneParallelAssignment]

theorem iterate_engStep_pos_right (e : Engine) (n : Nat) :
    ((engStep cat)^[n] e).pos.right = e.pos.right + Fin.ofNat 26 n := by
  induction n with
  | zero => simp
  | succ n ih =>
    have hofNat : Fin.ofNat 26 (n + 1) = Fin.ofNat 26 n + 1 := by
      apply Fin.ext
      simp [Fin.add_def]
    rw [Function.iterate_succ_apply', engStep_pos_right, ih, hofNat, add_assoc]

/-! ### Messages -/

@[simp] theorem engMsg_nil (e : Engine) : engMsg cat e [] = (e, []) := rfl

theorem engMsg_cons_letter (e : Engine) {ch : Byte} {c0 : Idx} (h : letterIdx ch = some c0) (rest : List Byte) :
    engMsg cat e (ch :: rest) =
      ((engMsg cat (engStep cat e) rest).1,
        letterOf (engPath cat (engStep cat e) c0) :: (engMsg cat (engStep cat e) rest).2) := by
  rw [engMsg, engChar_letter cat e h]

theorem engMsg_cons_nonLetter (e : Engine) {ch : Byte} (h : letterIdx ch = none) (rest : List Byte) :
    engMsg cat e (ch :: rest) = ((engMsg cat e rest).1, ch :: (engMsg cat e rest).2) := by
  rw [engMsg, engChar_nonLetter cat e h]

/-- The engine after a text has stepped once for each letter of it (R101, R103). -/
theorem engMsg_engine (e : Engine) (text : List Byte) :
    (engMsg cat e text).1 = (engStep cat)^[text.countP isLetter] e := by
  induction text generalizing e with
  | nil => rfl
  | cons ch rest ih =>
    cases h : letterIdx ch with
    | none =>
      have hch : ¬ isLetter ch = true := not_isLetter_of_letterIdx h
      rw [engMsg_cons_nonLetter cat e h, ih, List.countP_cons_of_neg hch]
    | some c0 =>
      have hch : isLetter ch = true := isLetter_of_letterIdx h
      rw [engMsg_cons_letter cat e h, ih, List.countP_cons_of_pos hch, Function.iterate_succ_apply]

theorem length_engMsg (e : Engine) (text : List Byte) : (engMsg cat e text).2.length = text.length := by
  induction text generalizing e with
  | nil => rfl
  | cons ch rest ih => simp [engMsg, ih]

/-- A message enciphered in two parts, the second from the engine that the first leaves (R104). -/
theorem engMsg_append (e : Engine) (a b : List Byte) :
    engMsg cat e (a ++ b) =
      ((engMsg cat (engMsg cat e a).1 b).1, (engMsg cat e a).2 ++ (engMsg cat (engMsg cat e a).1 b).2) := by
  induction a generalizing e with
  | nil => rfl
  | cons ch rest ih => simp [engMsg, ih]

/-- The text without its non-letters is answered with the letters of the text's answer (R103, R150). -/
theorem engMsg_filter_output (e : Engine) (text : List Byte) :
    (engMsg cat e (text.filter isLetter)).2 = (engMsg cat e text).2.filter isLetter := by
  induction text generalizing e with
  | nil => rfl
  | cons ch rest ih =>
    cases h : letterIdx ch with
    | none =>
      have hch : ¬ isLetter ch = true := not_isLetter_of_letterIdx h
      rw [engMsg_cons_nonLetter cat e h, List.filter_cons_of_neg hch, List.filter_cons_of_neg hch, ih]
    | some c0 =>
      have hch : isLetter ch = true := isLetter_of_letterIdx h
      rw [engMsg_cons_letter cat e h, List.filter_cons_of_pos hch, engMsg_cons_letter cat e h,
        List.filter_cons_of_pos (isLetter_letterOf _), ih]

end

/-- Settles O40: the engine has stepped once for each letter, and each step turns the right rotor. -/
theorem rightRotorCountsTheLetters : Obligations.RightRotorCountsTheLetters := by
  intro cat e text
  rw [engMsg_engine, iterate_engStep_pos_right]

/-- Settles O41: state and output of a message in two parts, and one output for each character. -/
theorem messagesAreEncipheredInOrder : Obligations.MessagesAreEncipheredInOrder := by
  intro cat e a b
  rw [engMsg_append]
  exact ⟨rfl, rfl, length_engMsg cat e a⟩

/-- Settles O42: the two texts have the same letters, so the engines take the same steps and answer the same letters. -/
theorem nonLettersDoNotAdvanceTheMachine : Obligations.NonLettersDoNotAdvanceTheMachine := by
  intro cat e text
  have hcount : (text.filter isLetter).countP isLetter = text.countP isLetter := by simp [List.countP_filter]
  exact ⟨by rw [engMsg_engine, engMsg_engine, hcount], engMsg_filter_output cat e text⟩

/-! ### The signal path -/

/-- The way of a signal to the reflector: plugboard, right, middle, left (R99). -/
def pathIn (cat : Catalog) (e : Engine) (c : Idx) : Idx :=
  rotFwd cat e .left (rotFwd cat e .middle (rotFwd cat e .right (plugFwd e c)))

/-- The way of a signal from the reflector: left, middle, right, plugboard (R99). -/
def pathOut (cat : Catalog) (e : Engine) (c : Idx) : Idx :=
  plugFwd e (rotBwd cat e .right (rotBwd cat e .middle (rotBwd cat e .left c)))

section
variable {cat : Catalog} {e : Engine}

theorem engPath_eq_pathOut_pathIn (cat : Catalog) (e : Engine) (c : Idx) :
    engPath cat e c = pathOut cat e (reflFwd cat e (pathIn cat e c)) := rfl

theorem plugFwd_plugFwd (he : EngineGood e) (c : Idx) : plugFwd e (plugFwd e c) = c := he c

theorem reflFwd_reflFwd (hcat : CatalogSound cat) (c : Idx) : reflFwd cat e (reflFwd cat e c) = c :=
  hcat.refl_involution e.ref c

/-- The way out undoes the way in, rotor by rotor from the left (R78). -/
theorem pathOut_pathIn (hcat : CatalogSound cat) (he : EngineGood e) (c : Idx) :
    pathOut cat e (pathIn cat e c) = c := by
  have hrotor (k : Slot) (x : Idx) : rotBwd cat e k (rotFwd cat e k x) = x := rotBwd_rotFwd (hcat.wiring_bijection _) x
  rw [pathOut, pathIn, hrotor, hrotor, hrotor, plugFwd_plugFwd he]

/-- The way in undoes the way out, rotor by rotor from the right (R78). -/
theorem pathIn_pathOut (hcat : CatalogSound cat) (he : EngineGood e) (c : Idx) :
    pathIn cat e (pathOut cat e c) = c := by
  have hrotor (k : Slot) (x : Idx) : rotFwd cat e k (rotBwd cat e k x) = x := rotFwd_rotBwd (hcat.wiring_bijection _) x
  rw [pathIn, pathOut, plugFwd_plugFwd he, hrotor, hrotor, hrotor]

/-- The signal path is the reflector seen through the way in, hence an involution as the reflector is (R106). -/
theorem engPath_engPath (hcat : CatalogSound cat) (he : EngineGood e) (c : Idx) :
    engPath cat e (engPath cat e c) = c := by
  simp only [engPath_eq_pathOut_pathIn, pathIn_pathOut hcat he, reflFwd_reflFwd hcat, pathOut_pathIn hcat he]

/-- A letter that comes back as itself is one that the reflector sends to itself (R107). -/
theorem reflFwd_pathIn_of_engPath_eq (hcat : CatalogSound cat) (he : EngineGood e) {c : Idx}
    (h : engPath cat e c = c) : reflFwd cat e (pathIn cat e c) = pathIn cat e c :=
  calc reflFwd cat e (pathIn cat e c)
      = pathIn cat e (engPath cat e c) := by rw [engPath_eq_pathOut_pathIn, pathIn_pathOut hcat he]
    _ = pathIn cat e c := by rw [h]

/-- `upper` of a letter is the upper-case letter of its index; any other code it leaves alone (R50). -/
theorem upperOf_eq : ∀ ch : Byte, upperOf ch = ((letterIdx ch).map letterOf).getD ch := by decide

/-- Enciphering the ciphertext from the same start gives the text back in upper case: both runs make the same steps, and
at each of them the signal path is an involution (R106). -/
theorem engMsg_engMsg (hcat : CatalogSound cat) (he : EngineGood e) (text : List Byte) :
    engMsg cat e (engMsg cat e text).2 = ((engMsg cat e text).1, text.map upperOf) := by
  induction text generalizing e with
  | nil => rfl
  | cons ch rest ih =>
    cases h : letterIdx ch with
    | none => simp [engMsg_cons_nonLetter cat e h, ih he, upperOf_eq, h]
    | some c0 =>
      have hstep : EngineGood (engStep cat e) := he.engStep cat
      simp [engMsg_cons_letter cat e h, engMsg_cons_letter cat e (letterIdx_letterOf _), ih hstep,
        engPath_engPath hcat hstep, upperOf_eq ch, h]

end

/-- Settles O43: the engine after a text is a number of steps, the path is an involution, and so are the messages. -/
theorem enciphermentIsReciprocal : Obligations.EnciphermentIsReciprocal := fun cat e =>
  ⟨fun t u hcount => by rw [engMsg_engine, engMsg_engine, hcount],
    fun hcat he => ⟨engPath_engPath hcat he, engMsg_engMsg hcat he⟩⟩

/-- Settles O44: a fixed letter would be a fixed index of a printed reflector, and there is none. -/
theorem noLetterEnciphersToItself : Obligations.NoLetterEnciphersToItself := fun e _ he hfix =>
  lookup_catRefl_ne e.ref _ (reflFwd_pathIn_of_engPath_eq catalogSound_catalog he hfix)

end Sys2Proof.Machine

/-! ## Construction: what `BUILD` checks and writes, and the commands of a host run in order -/

namespace Sys2Proof.Machine

/-! ### `BUILD` -/

theorem causeBit_eq_zero_iff {holds : Bool} {bit : Byte} (hbit : bit ≠ 0x00#8) :
    causeBit holds bit = 0x00#8 ↔ holds = false := by
  cases holds <;> simp [causeBit, hbit]

/-- The cause mask is zero when no cause holds, since each has a bit of its own (R94, R128). -/
theorem causeMask_eq_zero_iff (s : State) : s.causeMask = 0x00#8 ↔ WellShaped s := by
  simp [State.causeMask, causeBit_eq_zero_iff, WellShaped, and_assoc]

/-- `BUILD` on a well-shaped configuration (R95, R116). -/
theorem exec_build_of_wellShaped {s : State} (h : WellShaped s) :
    exec .build s = .next ({ s with engine := some (engineOfStaging s) }.respond .ok 0x00#8) :=
  if_pos ((causeMask_eq_zero_iff s).mpr h)

/-- A staged element is reduced modulo 26 (R95, D9). -/
theorem reduceElement_eq (v : BitVec 5) : reduceElement v = Fin.ofNat 26 v.toNat := mod26_ofNat v.toNat

/-- Settles O17: the effect of `BUILD` when validation passes, with the reductions written out. -/
theorem buildConstructsTheStagedEngine : Obligations.BuildConstructsTheStagedEngine := by
  intro s hs
  rw [exec_build_of_wellShaped hs, State.respond, responseWord_ok]
  simp only [engineOfStaging, reduceElements, reduceElement_eq, reflectorOfName]
  rfl

/-- A cause bit as a bit of the response word (R46, R128). -/
theorem setWidth_causeBit (holds : Bool) (bit : Byte) :
    (causeBit holds bit).setWidth 32 = if holds then bit.setWidth 32 else 0#32 := by
  cases holds <;> rfl

/-- The response word of a `ConfigurationError`: its status and every cause in its bit (R46, R94, R128). -/
theorem responseWord_causeMask (s : State) :
    responseWord .configurationError s.causeMask = 0x10000000#32 |||
      (if s.sRot.n = 3#3 then 0#32 else 1#32) ||| (if s.sPos.n = 3#3 then 0#32 else 2#32) |||
      (if s.sRing.n = 3#3 then 0#32 else 4#32) ||| (if s.sRef = 0x00#8 then 8#32 else 0#32) := by
  simp [responseWord, statusCode, State.causeMask, setWidth_causeBit, BitVec.or_assoc]

/-- Settles O18: an ill-shaped configuration has a cause, and `BUILD` answers the mask and writes nothing else. -/
theorem buildReportsEveryCause : Obligations.BuildReportsEveryCause := by
  intro s hs
  rw [exec_build_of_causeMask_ne_zero (mt (causeMask_eq_zero_iff s).mp hs), State.respond, responseWord_causeMask]

/-! ### The commands of a host, in order -/

theorem presentedAll_append (is js : List Instr) : presentedAll (is ++ js) = presentedAll is ++ presentedAll js :=
  List.filterMap_append

theorem presentedAll_cons {i : Instr} {w : Word} (hi : encode i = .command w) (is : List Instr) :
    presentedAll (i :: is) = .command w :: presentedAll is := by
  simp [presentedAll, presented, hi]

/-- Between commands, a step runs the command that the host presents next (R39, R109). -/
theorem step_presented {s : State} {i : Instr} {w : Word} {is : List Instr} {rest : List HostEvent}
    (hi : encode i = .command w) (hwf : i.wellFormed = true) (hs : Idle s)
    (hin : s.inbox = presentedAll (i :: is) ++ rest) :
    step s = exec i { s with inbox := presentedAll is ++ rest } := by
  have hdecode : decode (.command w) = .ok i := hi ▸ decodeOfEncodeIsInstruction i hwf
  exact stepRunsDecodedCommand s w _ i (by rw [hin, presentedAll_cons hi, List.cons_append]) hs hdecode

theorem run_add_of_run_next {s t : State} {j : Nat} (h : core.run j s = .next t) (k : Nat) :
    core.run (j + k) s = core.run k t := by
  induction j generalizing s with
  | zero =>
    cases h
    rw [Nat.zero_add]
  | succ j ih =>
    rw [Nat.add_right_comm]
    simp only [Host.Core.run] at h ⊢
    cases hstep : core.step s with
    | next u => exact ih (by simpa only [hstep] using h)
    | fault r => simp [hstep] at h
    | refused r => simp [hstep] at h

/-- A `BUILD` that the host presents next, on a well-shaped configuration (R39, R95, R116). -/
theorem step_build {s : State} {is : List Instr} {rest : List HostEvent} (hw : WellShaped s) (hs : Idle s)
    (hin : s.inbox = presentedAll (.build :: is) ++ rest) :
    step s =
      .next ({ s with engine := some (engineOfStaging s), inbox := presentedAll is ++ rest }.respond .ok 0x00#8) :=
  (step_presented rfl rfl hs hin).trans (exec_build_of_wellShaped (s := { s with inbox := presentedAll is ++ rest }) hw)

/-- An `ENCC` of one character that the host presents next, on a configured block (R39, R118). -/
theorem step_encc {s : State} {e : Engine} {ch : Byte} {is : List Instr} {rest : List HostEvent}
    (he : s.engine = some e) (hs : Idle s) (hin : s.inbox = presentedAll (.encc 1#2 ch :: is) ++ rest) :
    step s =
      .next ({ s with
        engine := some (engChar catalog e ch).1
        inbox := presentedAll is ++ rest }.respond .ok (engChar catalog e ch).2) :=
  (step_presented rfl rfl hs hin).trans (exec_encc_one (s := { s with inbox := presentedAll is ++ rest }) he ch)

/-- `ENCM` on a configured block does to the engine what `ENG.MSG` does, and answers what it gives (R119). -/
theorem run_encm {s : State} {e : Engine} {text : List Byte} {rest : List HostEvent} (he : s.engine = some e)
    (hs : Idle s) (hin : s.inbox = presentedAll (encmCommands text) ++ rest) :
    core.run text.length s =
      .next { s with
        engine := some (engMsg catalog e text).1
        inbox := rest
        outbox := s.outbox ++ (engMsg catalog e text).2.map (responseWord .ok) } := by
  induction text generalizing s e with
  | nil =>
    have hrest : s.inbox = rest := hin
    simp [Host.Core.run, ← he, ← hrest]
  | cons ch text ih =>
    rw [List.length_cons, run_succ_of_step_next (step_encc (is := encmCommands text) he hs hin), ih rfl rfl rfl]
    simp [engMsg, State.respond, show s.seq = none from hs]

/-- Settles O19: both `BUILD`s construct the engine of the staging registers, which enciphering leaves alone. -/
theorem secondBuildRestoresTheEngine : Obligations.SecondBuildRestoresTheEngine := by
  intro s text hw hs hin
  have hfirst := step_build (is := encmCommands text ++ [.build]) (rest := []) hw hs (by simpa using hin)
  have hsecond := (run_succ_of_step_next hfirst (text.length + 1)).trans <|
    (run_add_of_run_next (run_encm (text := text) (rest := presentedAll [.build]) rfl rfl
      (by simp [presentedAll_append])) 1).trans <|
    run_one_of_step_next (step_build (is := []) (rest := []) hw rfl rfl)
  exact ⟨_, _, run_one_of_step_next hfirst, hsecond, rfl, rfl⟩

end Sys2Proof.Machine

/-! ## The staging commands, read-out, and what a host's pseudo-instructions do -/

namespace Sys2Proof.Machine

/-! ### The live configuration -/

/-- On a live engine every instruction but `BUILD` keeps the engine or makes one `ENG.STEP` of it. -/
theorem exec_keeps_or_steps_engine {i : Instr} {s t : State} {e : Engine} (h : exec i s = .next t) (hi : i ≠ .build)
    (he : s.engine = some e) : ∃ e', t.engine = some e' ∧ (e' = e ∨ e' = engStep catalog e) := by
  obtain ⟨s', st, d, rfl, htouched, -⟩ | ⟨e₀, f, n, x, e', -, he₀, -, -, he', rfl⟩ := exec_next_cases h
  · obtain hsame | ⟨hbuild, -⟩ | ⟨-, e₀, he₀, hstepped⟩ := htouched.engine
    · exact ⟨e, hsame.trans he, .inl rfl⟩
    · exact absurd hbuild hi
    · cases he.symm.trans he₀
      exact ⟨_, hstepped, .inr rfl⟩
  · cases he.symm.trans he₀
    exact ⟨e', rfl, he'⟩

/-- Settles O54: an instruction but `BUILD` keeps or steps the engine, and `ENG.STEP` touches the positions alone. -/
theorem configurationChangesOnlyAtBuild : Obligations.ConfigurationChangesOnlyAtBuild := by
  intro i s t e h hi he
  obtain ⟨e', ht, rfl | rfl⟩ := exec_keeps_or_steps_engine h hi he
  · exact ⟨e'.pos, ht, .inl rfl⟩
  · exact ⟨(engStep catalog e).pos, by rw [engStep_eta, ht], .inr rfl⟩

/-! ### The staging commands -/

/-- A command that answers `OK` with data 0 leaves the sequencer idle and appends the zero word (R46, R47). -/
theorem State.respond_ok_zero (s : State) :
    s.respond .ok 0x00#8 = { s with seq := none, outbox := s.outbox ++ [0x00000000#32] } := rfl

section
variable (n : BitVec 3) (sl sm sr : BitVec 4) (vl vm vr : BitVec 5) (ch : Byte) (s : State)

theorem exec_setrot : exec (.setrot n sl sm sr) s =
    .next { s with sRot := ⟨n, ⟨sl, sm, sr⟩⟩, seq := none, outbox := s.outbox ++ [0x00000000#32] } :=
  congrArg Host.Outcome.next (State.respond_ok_zero _)

theorem exec_setpos : exec (.setpos n vl vm vr) s =
    .next { s with sPos := ⟨n, ⟨vl, vm, vr⟩⟩, seq := none, outbox := s.outbox ++ [0x00000000#32] } :=
  congrArg Host.Outcome.next (State.respond_ok_zero _)

theorem exec_setring : exec (.setring n vl vm vr) s =
    .next { s with sRing := ⟨n, ⟨vl, vm, vr⟩⟩, seq := none, outbox := s.outbox ++ [0x00000000#32] } :=
  congrArg Host.Outcome.next (State.respond_ok_zero _)

theorem exec_setref : exec (.setref ch) s =
    .next { s with sRef := ch, seq := none, outbox := s.outbox ++ [0x00000000#32] } :=
  congrArg Host.Outcome.next (State.respond_ok_zero _)

theorem exec_plugclr : exec .plugclr s =
    .next { s with sPlug := [], seq := none, outbox := s.outbox ++ [0x00000000#32] } :=
  congrArg Host.Outcome.next (State.respond_ok_zero _)

theorem exec_plugch : exec (.plugch ch) s =
    .next { s with sPlug := s.sPlug ++ [ch], seq := none, outbox := s.outbox ++ [0x00000000#32] } :=
  congrArg Host.Outcome.next (State.respond_ok_zero _)

end

/-- Settles O11: the decoder's row of opcode 1, and the meaning with its response written out. -/
theorem setrotStagesTheRotorList : Obligations.SetrotStagesTheRotorList :=
  ⟨fun _ hop hz => decode_opcode_setrot hop hz, exec_setrot⟩

/-- Settles O12: the decoder's row of opcode 2, and the meaning with its response written out. -/
theorem setposStagesThePositions : Obligations.SetposStagesThePositions :=
  ⟨fun _ hop hz => decode_opcode_setpos hop hz, exec_setpos⟩

/-- Settles O13: the decoder's row of opcode 3, and the meaning with its response written out. -/
theorem setringStagesTheRingSettings : Obligations.SetringStagesTheRingSettings :=
  ⟨fun _ hop hz => decode_opcode_setring hop hz, exec_setring⟩

/-- Settles O14: the decoder's row of opcode 4, and the meaning with its response written out. -/
theorem setrefStagesTheReflectorName : Obligations.SetrefStagesTheReflectorName :=
  ⟨fun _ hop hz => decode_opcode_setref hop hz, exec_setref⟩

/-- Settles O15: the decoder's row of opcode 5, and the meaning with its response written out. -/
theorem plugclrEmptiesTheSpecification : Obligations.PlugclrEmptiesTheSpecification :=
  ⟨decode_opcode_plugclr (by decide) (by decide), exec_plugclr⟩

/-- Settles O16: the decoder's row of opcode 6, and the meaning with its response written out. -/
theorem plugchAppendsOneCharacter : Obligations.PlugchAppendsOneCharacter :=
  ⟨fun _ hop hz => decode_opcode_plugch hop hz, exec_plugch⟩

/-! ### Read-out -/

theorem toNat_indexByte : ∀ i : Idx, (indexByte i).toNat = i.val := by decide

/-- `RDPOS` of a rotor on a configured block answers the index of its position (R46, R117). -/
theorem exec_rdpos_slot {s : State} {e : Engine} {k : BitVec 2} {slot : Slot} (hk : slotOfField k = some slot)
    (he : s.engine = some e) :
    exec (.rdpos k) s =
      .next { s with seq := none, outbox := s.outbox ++ [BitVec.ofNat 32 (slotGet e.pos slot).val] } := by
  simp only [exec, execRdpos, hk, State.withEngine_some he, State.respond, responseWord_ok, toNat_indexByte]

/-- Settles O20: the three fields that name a slot. -/
theorem rdposReadsThePosition : Obligations.RdposReadsThePosition := fun _ _ he =>
  ⟨exec_rdpos_slot (slot := .left) rfl he, exec_rdpos_slot (slot := .middle) rfl he,
    exec_rdpos_slot (slot := .right) rfl he⟩

/-- `RDPOS` of a field that names no slot is refused before the engine is looked at (R117, R131). -/
theorem exec_rdpos_noSlot {k : BitVec 2} (hk : slotOfField k = none) (s : State) :
    exec (.rdpos k) s = .next (s.respond .illegalCommand 0x00#8) := by
  simp only [exec, execRdpos, hk, State.raise_eq_respond]

/-- Settles O21: the decoder refuses the word, and 3 names no slot. -/
theorem rdposOfSlotThreeIsIllegal : Obligations.RdposOfSlotThreeIsIllegal :=
  ⟨by decide, fun s => exec_rdpos_noSlot rfl s⟩

/-! ### Pseudo-instructions -/

/-- Settles O59: the run of `ENCM`, with its response words written out. -/
theorem encmEnciphersTheMessage : Obligations.EncmEnciphersTheMessage := by
  intro s e text rest he hs hin
  have hword : responseWord .ok = fun d => BitVec.ofNat 32 d.toNat := funext responseWord_ok
  rw [run_encm he hs hin, hword]

/-- A run between commands goes through the command that the host presents next (R39, R109). -/
theorem run_presented {s t : State} {i : Instr} {w : Word} {is : List Instr} {rest : List HostEvent}
    (hi : encode i = .command w) (hwf : i.wellFormed = true) (hs : Idle s)
    (hin : s.inbox = presentedAll (i :: is) ++ rest)
    (ht : exec i { s with inbox := presentedAll is ++ rest } = .next t) (k : Nat) :
    core.run (k + 1) s = core.run k t :=
  run_succ_of_step_next ((step_presented hi hwf hs hin).trans ht) k

/-- `PLUGCH` of every character of a text appends the text (R115, R120). -/
theorem run_plugch {s : State} {text : List Byte} {rest : List HostEvent} (hs : Idle s)
    (hin : s.inbox = presentedAll (text.map .plugch) ++ rest) :
    core.run text.length s =
      .next { s with
        sPlug := s.sPlug ++ text
        seq := none
        inbox := rest
        outbox := s.outbox ++ List.replicate text.length 0x00000000#32 } := by
  induction text generalizing s with
  | nil =>
    have hrest : s.inbox = rest := hin
    simp [Host.Core.run, ← hrest, ← show s.seq = none from hs]
  | cons ch text ih =>
    rw [List.length_cons, run_presented (is := text.map .plugch) rfl rfl hs hin (exec_plugch ..), ih rfl rfl]
    simp [List.replicate_succ]

/-- `PLUGSTR` of a text stages the text in place of what was staged (R120). -/
theorem run_plugstr {s : State} {text : List Byte} {rest : List HostEvent} (hs : Idle s)
    (hin : s.inbox = presentedAll (plugstrCommands text) ++ rest) :
    core.run (text.length + 1) s =
      .next { s with
        sPlug := text
        seq := none
        inbox := rest
        outbox := s.outbox ++ List.replicate (text.length + 1) 0x00000000#32 } := by
  rw [run_presented (is := text.map .plugch) rfl rfl hs hin (exec_plugclr _), run_plugch rfl rfl]
  simp [List.replicate_succ]

/-- The commands with which `CONFIG` stages everything but the plugboard (R121). -/
def stagingCommands (rotors : Slots Sel) (positions rings : Slots (BitVec 5)) (ref : Byte) : List Instr :=
  [.setrot 3#3 rotors.left rotors.middle rotors.right,
    .setpos 3#3 positions.left positions.middle positions.right,
    .setring 3#3 rings.left rings.middle rings.right,
    .setref ref]

/-- `CONFIG` stages the lists and the name, then the plugboard, and builds (R121). -/
theorem configCommands_eq (rotors : Slots Sel) (positions rings : Slots (BitVec 5)) (ref : Byte) (plug : List Byte) :
    configCommands rotors positions rings ref plug =
      stagingCommands rotors positions rings ref ++ (plugstrCommands plug ++ [.build]) :=
  List.append_assoc ..

/-- The first four commands of `CONFIG` stage their operands (R110 to R113, R121). -/
theorem run_staging {s : State} {rotors : Slots Sel} {positions rings : Slots (BitVec 5)} {ref : Byte}
    {is : List Instr} {rest : List HostEvent} (hs : Idle s)
    (hin : s.inbox = presentedAll (stagingCommands rotors positions rings ref ++ is) ++ rest) :
    core.run 4 s =
      .next { s with
        sRot := ⟨3#3, rotors⟩
        sPos := ⟨3#3, positions⟩
        sRing := ⟨3#3, rings⟩
        sRef := ref
        seq := none
        inbox := presentedAll is ++ rest
        outbox := s.outbox ++ List.replicate 4 0x00000000#32 } := by
  rw [run_presented rfl rfl hs hin (exec_setrot ..), run_presented rfl rfl rfl rfl (exec_setpos ..),
    run_presented rfl rfl rfl rfl (exec_setring ..), run_presented (is := is) rfl rfl rfl rfl (exec_setref ..)]
  simp [Host.Core.run, List.replicate_succ]

/-- Settles O60: the lists and the name are staged, then the plugboard, and `BUILD` finds a well-shaped configuration. -/
theorem configConstructsTheEngine : Obligations.ConfigConstructsTheEngine := by
  intro s rotors positions rings ref plug rest href hs hin
  have hreplies : List.replicate (4 + (plug.length + 1 + 1)) 0x00000000#32 =
      List.replicate 4 0x00000000#32 ++ (List.replicate (plug.length + 1) 0x00000000#32 ++ [0x00000000#32]) := by
    rw [List.replicate_add, ← List.replicate_succ']
  rw [show plug.length + 6 = 4 + (plug.length + 1 + 1) by omega, hreplies,
    run_add_of_run_next (run_staging (is := plugstrCommands plug ++ [.build]) hs (configCommands_eq .. ▸ hin)),
    run_add_of_run_next (run_plugstr (text := plug) (rest := presentedAll [.build] ++ rest) rfl
      (by rw [presentedAll_append, List.append_assoc])),
    run_one_of_step_next (step_build (is := []) ⟨rfl, rfl, rfl, href⟩ rfl rfl)]
  simp [State.respond_ok_zero, engineOfStaging, presentedAll]

end Sys2Proof.Machine

/-! ## Exceptions: an error is a response and nothing else, and the guards that raise one -/

namespace Sys2Proof.Machine

/-! ### What an error leaves unchanged -/

/-- Between commands a response only appends its word: the sequencer is idle already (R19, R46). -/
theorem State.respond_of_idle {s : State} (hs : Idle s) (st : Status) (d : Byte) :
    s.respond st d = { s with outbox := s.outbox ++ [responseWord st d] } := by
  rw [State.respond, ← hs]

/-- Between commands a step on a command word is a response to it; with an error status, on the state before with only the
word taken (R109, R131, R133). -/
theorem step_command_cases {s t : State} {w : Word} {rest : List HostEvent} (hs : Idle s)
    (hi : s.inbox = .command w :: rest) (h : step s = .next t) :
    ∃ s' st d, t = s'.respond st d ∧ s'.outbox = s.outbox ∧ (st ≠ .ok → s' = { s with inbox := rest }) := by
  have htaken : s.accept = { s with inbox := rest } := by rw [State.accept, hi, List.tail_cons]
  cases step_next_cases h with
  | reset _ hreset _ => simp [hi] at hreset
  | hold _ hempty _ => simp [hi] at hempty
  | stage _ _ hletter _ _ _ => simp [hs] at hletter
  | command _ _ _ _ _ _ ht =>
    obtain ⟨s', st, d, rfl, htouched, herror⟩ := answered_of_idle (s := s.accept) hs ht
    exact ⟨s', st, d, rfl, htouched.outbox, fun hst => (herror hst).trans htaken⟩
  | undecodable _ _ _ _ _ _ ht => exact ⟨s.accept, .illegalCommand, 0x00#8, ht, rfl, fun _ => htaken⟩

theorem one_le_statusCode {st : Status} (h : st ≠ .ok) : 1 ≤ (statusCode st).toNat := by
  revert h
  cases st <;> decide

/-- Settles O58: a status other than `OK` makes the response one on the state with only the word taken. -/
theorem errorsChangeNoState : Obligations.ErrorsChangeNoState := by
  intro s t w rest word hs hi h hout herror
  obtain ⟨s', st, d, rfl, hsame, hunchanged⟩ := step_command_cases hs hi h
  obtain rfl : responseWord st d = word := by simpa [hsame] using hout
  have hst : st ≠ .ok := fun hok => herror (by rw [responseStatus_responseWord, hok, statusCode])
  obtain rfl := hunchanged hst
  refine ⟨State.respond_of_idle (s := { s with inbox := rest }) hs st d, responseWord_middle st d, ?_⟩
  rw [responseStatus_responseWord]
  exact ⟨one_le_statusCode hst, statusCode_le_four st⟩

/-- A fetched command word that the decoder rejects is answered `IllegalCommand` (R131). -/
theorem step_of_fetch_undecodable {s t : State} {w : Word} {err : DecodeError} (hf : s.fetch = .run (.command w) t)
    (hd : decode (.command w) = .error err) : step s = .next (t.respond .illegalCommand 0x00#8) := by
  simp [step, hf, hd, reject]

/-- Settles O7: the rejected word is taken and answered, on an idle sequencer. -/
theorem undecodableWordIsIllegalCommand : Obligations.UndecodableWordIsIllegalCommand := by
  intro s w rest hi hs hd
  cases herr : decode (.command w) with
  | ok i => exact absurd herr (hd i)
  | error err =>
    rw [step_of_fetch_undecodable (State.fetch_command hi hs) herr,
      State.respond_of_idle (s := { s with inbox := rest }) hs]
    rfl

/-- Settles O10: with nothing presented and no letter in flight the fetch is to hold. -/
theorem idleBlockHoldsItsState : Obligations.IdleBlockHoldsItsState := by
  intro s hi hs
  simp only [step, State.fetch_hold hi hs]

/-! ### The commands that need an engine -/

/-- `NotConfigured` with its response word written out (R46, R130). -/
theorem State.respond_notConfigured (s : State) :
    s.respond .notConfigured 0x00#8 = { s with seq := none, outbox := s.outbox ++ [0x30000000#32] } := rfl

/-- `InputError` with its response word written out (R46, R129). -/
theorem State.respond_inputError (s : State) :
    s.respond .inputError 0x00#8 = { s with seq := none, outbox := s.outbox ++ [0x20000000#32] } := rfl

/-- The one field that names no slot is 3 (R44). -/
theorem slotOfField_eq_none_iff : ∀ {k : BitVec 2}, slotOfField k = none ↔ k = 3#2 := by decide

/-- `ENCC` looks for an engine before it looks at its operands (R118, R135). -/
theorem exec_encc_noEngine {s : State} (he : s.engine = none) (cnt : BitVec 2) (ch : Byte) :
    exec (.encc cnt ch) s = .next (s.respond .notConfigured 0x00#8) :=
  State.withEngine_none he _

/-- `RDPOS` of a slot needs an engine (R117, R130). -/
theorem exec_rdpos_noEngine {s : State} {k : BitVec 2} {slot : Slot} (hk : slotOfField k = some slot)
    (he : s.engine = none) : exec (.rdpos k) s = .next (s.respond .notConfigured 0x00#8) := by
  simp only [exec, execRdpos, hk, State.withEngine_none he]

/-- Settles O22: both commands find no engine, `RDPOS` because its field names a slot. -/
theorem noEngineIsNotConfigured : Obligations.NoEngineIsNotConfigured := by
  intro s he
  rw [← State.respond_notConfigured]
  refine ⟨exec_encc_noEngine he, fun k hk => ?_⟩
  obtain ⟨slot, hslot⟩ := Option.ne_none_iff_exists'.mp (mt slotOfField_eq_none_iff.mp hk)
  exact exec_rdpos_noEngine hslot he

/-- Settles O23: with an engine `ENCC` looks at its count before it steps a rotor. -/
theorem wrongCountIsInputError : Obligations.WrongCountIsInputError := by
  intro s e cnt ch he hcnt
  rw [← State.respond_inputError]
  exact (State.withEngine_some he _).trans (if_neg hcnt)

/-! ### The stages outside a letter or without an engine -/

theorem State.withLetter_idle {s : State} (hs : Idle s) (k : Engine → InFlight → Result) :
    s.withLetter k = .fault .sequencerIdle := by
  simp only [State.withLetter, hs]

theorem State.withLetter_noEngine {s : State} {f : InFlight} (hf : s.seq = some f) (he : s.engine = none)
    (k : Engine → InFlight → Result) : s.withLetter k = .next (s.respond .notConfigured 0x00#8) := by
  simp only [State.withLetter, hf, State.withEngine_none he]

/-- Every instruction that is a stage works on the letter in flight (R100). -/
theorem exec_stage_eq_withLetter {i : Instr} {n : BitVec 4} (hi : encode i = .stage n) :
    ∃ k : State → Engine → InFlight → Result, ∀ s, exec i s = s.withLetter (k s) := by
  cases i with
  | classify | step | plugIn | rFwd | mFwd | lFwd | refl | lBwd | mBwd | rBwd | plugOut | emit =>
    exact ⟨_, fun _ => rfl⟩
  | setrot | setpos | setring | setref | plugclr | plugch | build | encc | rdpos => cases hi

/-- Settles O34: each of the twelve is a stage, and the guard of the stages answers before the stage does anything. -/
theorem stagesNeedALetterAndAnEngine : Obligations.StagesNeedALetterAndAnEngine := by
  intro i hi
  have hstage : ∃ n, encode i = .stage n := by
    revert i
    simp [encode]
  obtain ⟨n, hn⟩ := hstage
  obtain ⟨k, hk⟩ := exec_stage_eq_withLetter hn
  refine ⟨fun s hs => (hk s).trans (State.withLetter_idle hs _), fun s f hf he => ?_⟩
  rw [hk, State.withLetter_noEngine hf he, State.respond_notConfigured]

end Sys2Proof.Machine

/-! ## Reset, and that no step from a good state stops -/

namespace Sys2Proof.Machine

/-! ### The reset event -/

/-- The reset input acts at once, whatever the sequencer is doing (R143). -/
theorem step_of_reset {s : State} {rest : List HostEvent} (hi : s.inbox = .reset :: rest) :
    step s = .next s.takeReset := by
  simp only [step, State.fetch_reset hi]

/-- Settles O8: the step is the reset of the block, which only takes the event from the port and keeps the outbox. -/
theorem resetEventClearsTheBlock : Obligations.ResetEventClearsTheBlock := by
  intro s rest hi
  exact ⟨s.takeReset, step_of_reset hi, by simp [hi]⟩

/-! ### Stages and steps that answer -/

/-- A stage number that the decoder accepts is the encoding of its instruction (R100). -/
theorem encode_of_decode_stage {i : Instr} {n : BitVec 4} (h : decode (.stage n) = .ok i) : encode i = .stage n := by
  simp only [decode, decodeStage] at h
  split at h <;> cases h <;> rfl

/-- The decoder accepts every number below 12 (R100). -/
theorem decode_stage_of_lt {n : BitVec 4} (hn : n.toNat < 12) : ∃ i, decode (.stage n) = .ok i := by
  have haccepts : ∀ m : BitVec 4, m.toNat < 12 → (decode (.stage m)).isOk = true := by decide
  have hok := haccepts n hn
  cases hd : decode (.stage n) with
  | ok i => exact ⟨i, rfl⟩
  | error err => simp [hd, Except.isOk, Except.toBool] at hok

/-- A stage that runs on a letter answers when it answers on every engine; without an engine the guard answers (R130). -/
theorem State.withLetter_answers {s : State} {f : InFlight} {k : Engine → InFlight → Result} (hf : s.seq = some f)
    (hk : ∀ e, ∃ t, k e f = .next t) : ∃ t, s.withLetter k = .next t := by
  simpa only [State.withLetter, hf] using s.withEngine_answers hk

/-- With a letter in flight no stage faults (R100). -/
theorem exec_stage_answers {i : Instr} {n : BitVec 4} {s : State} {f : InFlight} (hi : encode i = .stage n)
    (hf : s.seq = some f) : ∃ t, exec i s = .next t := by
  cases i with
  | classify =>
    refine State.withLetter_answers hf fun e => ?_
    split <;> exact ⟨_, rfl⟩
  | step | plugIn | rFwd | mFwd | lFwd | refl | lBwd | mBwd | rBwd | plugOut | emit =>
    exact State.withLetter_answers hf fun e => ⟨_, rfl⟩
  | setrot | setpos | setring | setref | plugclr | plugch | build | encc | rdpos => cases hi

/-- Settles O52: a fetch is a reset, a stage, a command word or nothing, and each of the four answers; for the stage the
invariant says that its number is one of the twelve. -/
theorem goodStatesNeverStop : Obligations.GoodStatesNeverStop := by
  intro s hs
  obtain ⟨rest, hi, -⟩ | ⟨f, hf, hi, hfetch⟩ | ⟨w, rest, hidle, hi, -⟩ | ⟨hidle, hi, -⟩ := s.fetch_cases
  · exact ⟨_, step_of_reset hi⟩
  · obtain ⟨i, hd⟩ := decode_stage_of_lt (hs.letter_good f hf)
    rw [step_of_fetch_run hfetch hd]
    exact exec_stage_answers (encode_of_decode_stage hd) hf
  · obtain ⟨t, -, -, ht, -⟩ := step_command_responds hidle hi
    exact ⟨t, ht⟩
  · exact ⟨s, idleBlockHoldsItsState s hi hidle⟩

end Sys2Proof.Machine

/-! ## The accepted codes, the reset state, and the frame of the staging registers -/

namespace Sys2Proof.Machine

/-! ### A code that is accepted -/

theorem encode_of_decode {c : Code} {i : Instr} (h : decode c = .ok i) : encode i = c := by
  cases c with
  | command w => exact encode_of_decode_command h
  | stage n => exact encode_of_decode_stage h

/-- The slot field that names no rotor is the one operand that is not well formed (R45). -/
theorem wellFormed_of_ne_rdpos_three {i : Instr} (h : i ≠ .rdpos 3#2) : i.wellFormed = true := by
  cases i with
  | rdpos k => simpa [Instr.wellFormed] using h
  | setrot | setpos | setring | setref | plugclr | plugch | build | encc | classify | step | plugIn | rFwd | mFwd
  | lFwd | refl | lBwd | mBwd | rBwd | plugOut | emit => rfl

/-- The only code whose instruction could be ill formed is `0x90000003`, and the decoder refuses it (R53). -/
theorem wellFormed_of_decode {c : Code} {i : Instr} (h : decode c = .ok i) : i.wellFormed = true := by
  refine wellFormed_of_ne_rdpos_three ?_
  rintro rfl
  have hword : encode (.rdpos 3#2) = .command 0x90000003#32 := by decide
  obtain ⟨hreject, -⟩ := rdposOfSlotThreeIsIllegal
  rw [← encode_of_decode h, hword, hreject] at h
  cases h

/-- Settles O2: command words and stage numbers are each the encoding of what they decode to, and the one word that would
encode an ill-formed instruction is refused. -/
theorem decodedCodeIsItsEncoding : Obligations.DecodedCodeIsItsEncoding :=
  fun _ _ h => ⟨wellFormed_of_decode h, encode_of_decode h⟩

/-! ### The invariant at reset -/

/-- Settles O50: the state after reset is a fixed point of the reset event, which leads to a good state. -/
theorem resetStateIsGood : Obligations.ResetStateIsGood := by
  have hfixed : State.reset.takeReset = State.reset := rfl
  rw [Obligations.ResetStateIsGood, ← hfixed]
  exact stateGood_takeReset State.reset

/-! ### The staging registers -/

/-- Settles O55: an answer leaves the registers that the instruction's own rule does not name, and a stage that hands the
letter on writes none of them. -/
theorem stagingIsWrittenOnlyByItsCommands : Obligations.StagingIsWrittenOnlyByItsCommands := by
  intro i s t h
  obtain ⟨s', st, d, rfl, htouched, -⟩ | ⟨e, f, n, x, e', -, -, -, -, -, rfl⟩ := exec_next_cases h
  · exact ⟨fun hi => htouched.sRot.resolve_right (by simpa using hi),
      fun hi => htouched.sPos.resolve_right (by simpa using hi),
      fun hi => htouched.sRing.resolve_right (by simpa using hi),
      fun hi => htouched.sRef.resolve_right (by simpa using hi),
      fun hi => htouched.sPlug.resolve_right (by simpa using hi)⟩
  · exact ⟨fun _ => rfl, fun _ => rfl, fun _ => rfl, fun _ => rfl, fun _ => rfl⟩

end Sys2Proof.Machine
